-- ==== Sys2Proof/Word.lean ====
section
/-!
DEFINITION. The word types of the LS-8: the 8-bit byte (00_scope.md R4) and the 9-bit program counter (R5).
-/

namespace Sys2Proof

/-- `WORD` of R4: registers, memory cells, operands, immediates and opcodes are unsigned 8-bit values. -/
abbrev Byte := BitVec 8

/-- `PC_WIDTH` of R5: the program counter has 9 bits; runs reach only the values 0..256 (10_state.md R24, R26). -/
abbrev PcWord := BitVec 9

end Sys2Proof
end

