-- ==== Sys2Proof/Syntax.lean ====
section
/-!
DEFINITION. The syntax of the LS-8: the closed set of 18 instructions (00_scope.md R3, 30_encoding.md R77), one
constructor per row of the opcode table. A register operand is the WHOLE operand byte (R75): a byte above 7 is a term of
this type, decodes, and raises AddressError when the instruction uses it.
-/

namespace Sys2Proof

/-- The 18 mnemonics of R3, in the opcode table's order. -/
inductive Op where
  | hlt | ldi | prn | add | sub | mul | cmp | and | or | xor | not | push | pop | call | ret | jmp | jeq | jne
deriving DecidableEq, Repr

namespace Op

/-- Every mnemonic once, in the table's order. -/
def all : List Op :=
  [hlt, ldi, prn, add, sub, mul, cmp, and, or, xor, not, push, pop, call, ret, jmp, jeq, jne]

end Op

/-- An instruction with its operand bytes: `a` is the byte after the opcode, `b` the byte after that (R70, R74). -/
inductive Instr where
  /-- HLT, format F0 (40_hlt_ldi_prn.md R100). -/
  | hlt
  /-- LDI register a, imm8 b, format F2 (R101). -/
  | ldi (a b : Byte)
  /-- PRN register a, format F1 (R102). -/
  | prn (a : Byte)
  /-- ADD register a, register b, format F2 (41_alu.md R111). -/
  | add (a b : Byte)
  /-- SUB register a, register b, format F2 (R112). -/
  | sub (a b : Byte)
  /-- MUL register a, register b, format F2 (R113). -/
  | mul (a b : Byte)
  /-- CMP register a, register b, format F2 (R114). -/
  | cmp (a b : Byte)
  /-- AND register a, register b, format F2 (R115). -/
  | and (a b : Byte)
  /-- OR register a, register b, format F2 (R116). -/
  | or (a b : Byte)
  /-- XOR register a, register b, format F2 (R117). -/
  | xor (a b : Byte)
  /-- NOT register a, format F1 (R118). -/
  | not (a : Byte)
  /-- PUSH register a, format F1 (42_stack.md R120). -/
  | push (a : Byte)
  /-- POP register a, format F1 (R121). -/
  | pop (a : Byte)
  /-- CALL register a, format F1 (43_control_transfer.md R131). -/
  | call (a : Byte)
  /-- RET, format F0 (R132). -/
  | ret
  /-- JMP register a, format F1 (R133). -/
  | jmp (a : Byte)
  /-- JEQ register a, format F1 (R134). -/
  | jeq (a : Byte)
  /-- JNE register a, format F1 (R135). -/
  | jne (a : Byte)
deriving DecidableEq, Repr

namespace Instr

/-- The mnemonic an instruction is written with. -/
def op : Instr → Op
  | hlt => .hlt
  | ldi _ _ => .ldi
  | prn _ => .prn
  | add _ _ => .add
  | sub _ _ => .sub
  | mul _ _ => .mul
  | cmp _ _ => .cmp
  | and _ _ => .and
  | or _ _ => .or
  | xor _ _ => .xor
  | not _ => .not
  | push _ => .push
  | pop _ => .pop
  | call _ => .call
  | ret => .ret
  | jmp _ => .jmp
  | jeq _ => .jeq
  | jne _ => .jne

/-- The operand bytes in encoding order (R74: none for F0, `a` for F1, `a` then `b` for F2). -/
def operands : Instr → List Byte
  | hlt => []
  | ldi a b => [a, b]
  | prn a => [a]
  | add a b => [a, b]
  | sub a b => [a, b]
  | mul a b => [a, b]
  | cmp a b => [a, b]
  | and a b => [a, b]
  | or a b => [a, b]
  | xor a b => [a, b]
  | not a => [a]
  | push a => [a]
  | pop a => [a]
  | call a => [a]
  | ret => []
  | jmp a => [a]
  | jeq a => [a]
  | jne a => [a]

end Instr

end Sys2Proof
end

