-- ==== Sys2Proof/WellFormed.lean ====
section
/-!
DEFINITION. Well-formed instructions: every register operand is a legal register index, 0..7 (30_encoding.md R75, "Its
legal values are 0..7"). An ill-formed instruction is still a word of the machine: it decodes, and it raises AddressError
when it uses the operand (10_state.md R23).
-/

namespace Sys2Proof.Instr

/-- The operand bytes the instruction takes as register indices, operand a before operand b (30_encoding.md R77). LDI's
second operand is an immediate and is not among them. -/
def regOperands : Instr → List Byte
  | hlt => []
  | ldi a _ => [a]
  | prn a => [a]
  | add a b => [a, b]
  | sub a b => [a, b]
  | mul a b => [a, b]
  | cmp a b => [a, b]
  | and a b => [a, b]
  | or a b => [a, b]
  | xor a b => [a, b]
  | not a => [a]
  | push a => [a]
  | pop a => [a]
  | call a => [a]
  | ret => []
  | jmp a => [a]
  | jeq a => [a]
  | jne a => [a]

/-- The one check: each register operand byte names a register (R75). -/
def wellFormed (i : Instr) : Bool := i.regOperands.all fun b => decide (b.toNat < 8)

end Sys2Proof.Instr
end

