-- ==== Sys2Proof/Decode.lean ====
section
/-!
DEFINITION. The decode table, the decoder and the encoder (30_encoding.md R70 to R80). Decode compares the full opcode
byte with the table (R76) and is total on any three bytes; a byte outside the table is rejected by name (R79). The length
and the own-PC bit are computed from the opcode bits and stand in no table (R72, R73, R76).
-/

namespace Sys2Proof

/-- The opcode map of R77. LDI, PRN and HLT are the source's own values, the other fifteen the spec's decision D1. -/
def opcodeOf : Op → Byte
  | .hlt  => 0b00000001
  | .ldi  => 0b10000010
  | .prn  => 0b01000111
  | .add  => 0b10100000
  | .sub  => 0b10100001
  | .mul  => 0b10100010
  | .cmp  => 0b10100111
  | .and  => 0b10101000
  | .or   => 0b10101010
  | .xor  => 0b10101011
  | .not  => 0b01101001
  | .push => 0b01000101
  | .pop  => 0b01000110
  | .call => 0b01010000
  | .ret  => 0b00010001
  | .jmp  => 0b01010100
  | .jeq  => 0b01010101
  | .jne  => 0b01010110

/-- The decode table of R76 read at one opcode byte: the instruction named there, or none for an invalid entry. -/
def lookupOp (byte : Byte) : Option Op := Op.all.find? fun o => opcodeOf o == byte

/-- `Length(op) = op[7:6] + 1` (R72). -/
def opLength (byte : Byte) : Nat := (byte.extractLsb' 6 2).toNat + 1

/-- `OwnPC(op) = op[4]` (R73): the instruction writes the pc itself and the loop does not advance it. -/
def opOwnPc (byte : Byte) : Bool := byte.getLsbD 4

/-- What decode answers: an instruction, or the rejection of R83 with the opcode byte it rejects. -/
inductive Decoded where
  /-- A recognised opcode with the operand bytes it uses. -/
  | instr (i : Instr)
  /-- No entry in the decode table; raised by the fetched opcode byte alone (60_exceptions.md R151). -/
  | unknownInstruction (opcode : Byte)
deriving DecidableEq, Repr

/-- The instruction named by a mnemonic with `a = OPA` and `b = OPB` (R83); a byte the format does not use is dropped
unexamined (R80). -/
def instrOf (a b : Byte) : Op → Instr
  | .hlt  => .hlt
  | .ldi  => .ldi a b
  | .prn  => .prn a
  | .add  => .add a b
  | .sub  => .sub a b
  | .mul  => .mul a b
  | .cmp  => .cmp a b
  | .and  => .and a b
  | .or   => .or a b
  | .xor  => .xor a b
  | .not  => .not a
  | .push => .push a
  | .pop  => .pop a
  | .call => .call a
  | .ret  => .ret
  | .jmp  => .jmp a
  | .jeq  => .jeq a
  | .jne  => .jne a

/-- Decode of a fetched window (R83): look `ir` up in the decode table and take the operands the instruction uses. -/
def decode (ir opa opb : Byte) : Decoded :=
  match lookupOp ir with
  | some o => .instr (instrOf opa opb o)
  | none => .unknownInstruction ir

/-- The bytes of an instruction at ascending addresses: opcode, then operand a, then operand b (R70, R74). -/
def encode (i : Instr) : List Byte := opcodeOf i.op :: i.operands

/-- Byte `k` of a table word: bits `8k+7 .. 8k` of `w`, and 0 for bits at or above `nbits`. -/
def tableByte (nbits w k : Nat) : Byte := BitVec.ofNat 8 (w % 2 ^ nbits / 2 ^ (8 * k))

/-- The instruction the decoder reads from an opcode-table word: bit 0 is the least significant bit of the first byte,
the second byte is bits 15..8, the third bits 23..16, every bit at or above `nbits` is 0. -/
def decodeTableWord (nbits w : Nat) : Option Instr :=
  match decode (tableByte nbits w 0) (tableByte nbits w 1) (tableByte nbits w 2) with
  | .instr i => some i
  | .unknownInstruction _ => none

end Sys2Proof
end

