-- ==== Sys2Proof/Config.lean ====
section
/-!
DEFINITION. The implementation parameters of 00_scope.md R4 and R5 (the opcode values, which R5 also counts as a
parameter, stand in Decode.lean). The spec leaves no result of an instruction open, so there is no free value here.
-/

namespace Sys2Proof.Config

/-- `MEM_SIZE` of R4: 256 cells, addresses 0..255. -/
def memSize : Nat := 256

/-- `SP_INDEX` of R4: register 7 is the stack pointer. -/
def spIndex : Fin 8 := 7

/-- `SP_RESET` of R4: the stack pointer starts at 0xF4 (244). -/
def spReset : Byte := 0xF4

/-- `LOAD_ADDR` of R5 at its default 0: the address of program byte 0 and the pc after reset. The spec leaves the
parameter open in 0..255; `State.resetAt` takes it as an argument and `State.reset` uses this default
(DESIGN CHOICE, log entry 2). -/
def loadAddr : Byte := 0

end Sys2Proof.Config
end

