-- ==== Sys2Proof/Machine/State.lean ====
section
/-!
DEFINITION. The state of the core as plain data: everything 10_state.md lists, and nothing else (R33). Reset puts every
field at the value of R34 to R42 (70_reset_and_hazards.md R180).
-/

namespace Sys2Proof.Machine

/-- Memory as data (20_memory.md R50): the cells that do not hold 0x00, by strictly rising address (`Memory.wf`). -/
abbrev Memory := List Host.Cell

/-- `kind` of an AddressError (10_state.md R30). -/
inductive AddrKind where
  | memory
  | register
deriving DecidableEq, Repr

/-- The two fatal errors of 60_exceptions.md R150 with the information R151 and R152 give them; `raise` adds the pc. -/
inductive FatalError where
  /-- The fetched opcode byte has no entry in the decode table (R151). -/
  | unknownInstruction (opcode : Byte)
  /-- A memory address above 255, or a register operand byte above 7 (R152). The index is unbounded, because
  `MemRead`'s address is (20_memory.md R51). -/
  | addressError (kind : AddrKind) (index : Nat)
deriving DecidableEq, Repr

/-- The halt-cause record `HC` (10_state.md R30). -/
inductive HaltCause where
  /-- NONE: the core has not stopped. -/
  | none
  /-- HALT, with the pc of the HLT instruction. -/
  | halt (pc : PcWord)
  /-- UNKNOWN_INSTRUCTION, with the offending opcode and the pc at which it occurred. -/
  | unknownInstruction (opcode : Byte) (pc : PcWord)
  /-- ADDRESS_ERROR, with the kind, the out-of-range address or operand byte, and the pc. -/
  | addressError (kind : AddrKind) (index : Nat) (pc : PcWord)
deriving DecidableEq, Repr

/-- The whole state of the core (the table at the head of 10_state.md). -/
structure State where
  /-- General registers `x[0]` to `x[7]`; `x[7]` is the stack pointer (R20, R21). -/
  x : Vector Byte 8
  /-- Program counter (R24). -/
  pc : PcWord
  /-- Flag register; only bit 0, Equal, is defined (R27). -/
  fl : Byte
  /-- Memory (20_memory.md R50). -/
  mem : Memory
  /-- The Execution Engine's running flag (R29). -/
  running : Bool
  /-- Halt-cause record (R30). -/
  hc : HaltCause
  /-- Output stream, oldest entry first (R31). -/
  out : List Byte
  /-- Fetch latch of the opcode byte (R32). -/
  ir : Byte
  /-- Fetch latch of operand a (R32). -/
  opa : Byte
  /-- Fetch latch of operand b (R32). -/
  opb : Byte
deriving DecidableEq, Repr

/-- Why the machine takes no step. -/
inductive Fault where
  /-- Raised by `step` alone, in the Halted state (`running = false` and `HC` is not NONE): "a halted core takes no step"
  (60_exceptions.md R155, 70_reset_and_hazards.md R185; treatment `stuck` of 93_implementation_defined.md I17). Safe: it is
  the absence of a step. No instruction raises it. -/
  | halted
deriving DecidableEq, Repr

/-- Why an instruction has no meaning. -/
inductive Refusal where
  /-- Answered by an arm of `exec` for an instruction without a meaning. No arm of this model does. Safe. -/
  | notModelled (mnemonic : String)
deriving DecidableEq, Repr

namespace State

/-- The state after reset with the parameter `LOAD_ADDR` at a given value (70_reset_and_hazards.md R180): memory zero
(nothing listed), x[0..6] zero, x[7] = 0xF4, pc = `LOAD_ADDR`, FL zero, not running, HC NONE, out empty. The fetch latches
are unspecified (R42) and hold 0 (DESIGN CHOICE, log entry 1). -/
def resetAt (loadAddr : Byte) : State where
  x := #v[0, 0, 0, 0, 0, 0, 0, Config.spReset]
  pc := loadAddr.setWidth 9
  fl := 0
  mem := []
  running := false
  hc := .none
  out := []
  ir := 0
  opa := 0
  opb := 0

/-- The state after reset, with `LOAD_ADDR` at its default (R37; log entry 2). -/
def reset : State := resetAt Config.loadAddr

end State

end Sys2Proof.Machine
end

