-- ==== Sys2Proof/Machine/Ops.lean ====
section
/-!
DEFINITION. The named operations over memory, registers, stack, output and the instruction cycle that every instruction
shares: `MemRead`, `MemWrite`, `Push`, `Pop`, `Emit`, `raise`, fetch, and the end of the cycle. An operation that can raise
answers `Except FatalError …`; the state it would have built is then dropped, which is what makes a fault precise (60_exceptions.md R154).
-/

namespace Sys2Proof.Machine

/-! ### The memory array -/

namespace Memory

/-- The canonical form from address `lo` on: rising addresses, inside 0..255, no cell of 0x00. -/
def wfFrom (lo : Nat) : Memory → Bool
  | [] => true
  | (a, v) :: m => decide (lo ≤ a ∧ a < Config.memSize) && v != 0#8 && wfFrom (a + 1) m

/-- The canonical form of memory. -/
def wf (m : Memory) : Bool := wfFrom 0 m

/-- The byte at an address; an unlisted address reads as 0x00, its value after reset (10_state.md R34). -/
def read : Memory → Nat → Byte
  | [], _ => 0#8
  | (b, w) :: m, a => if b = a then w else read m a

/-- The memory with the byte at an address replaced; 0x00 is not listed. -/
def write : Memory → Nat → Byte → Memory
  | [], a, v => if v = 0#8 then [] else [(a, v)]
  | (b, w) :: m, a, v =>
    if a < b then (if v = 0#8 then (b, w) :: m else (a, v) :: (b, w) :: m)
    else if a = b then (if v = 0#8 then m else (a, v) :: m)
    else (b, w) :: write m a v

end Memory

namespace State

/-! ### Registers, output, the phases of the engine -/

/-- `x[i]` (10_state.md R20). -/
def reg (s : State) (i : Fin 8) : Byte := s.x[i]

/-- `x[i] <- v` (R20, R22: no register is hardwired). -/
def setReg (s : State) (i : Fin 8) (v : Byte) : State := { s with x := s.x.set i v }

/-- `SP`, another name for `x[7]` (R21). -/
def sp (s : State) : Byte := s.reg Config.spIndex

/-- `pc <- target` (R24). -/
def setPc (s : State) (target : PcWord) : State := { s with pc := target }

/-- `Emit(v)`: append to the output stream (R31). -/
def emit (s : State) (v : Byte) : State := { s with out := s.out ++ [v] }

/-- Loaded: not yet started (R39). -/
def isLoaded (s : State) : Bool := !s.running && decide (s.hc = .none)

/-- Halted: stopped by HLT or a fatal error (60_exceptions.md R168). -/
def isHalted (s : State) : Bool := !s.running && decide (s.hc ≠ .none)

/-- What `run()` and `step()` do first in the Loaded state (70_reset_and_hazards.md R184). -/
def start (s : State) : State := { s with running := true }

/-- The effect of HLT (40_hlt_ldi_prn.md R100), before the pc advance. -/
def halt (s : State) : State := { s with running := false, hc := .halt s.pc }

/-- The memory cell of an address in 0..255. -/
def byteAt (s : State) (addr : Nat) : Byte := Memory.read s.mem addr

/-- Replace a memory cell. -/
def setByte (s : State) (addr : Nat) (v : Byte) : State := { s with mem := Memory.write s.mem addr v }

/-- Store bytes at consecutive addresses, leaving out those whose address does not exist. -/
def placeBytes (s : State) (addr : Nat) : List Byte → State
  | [] => s
  | b :: bs => (if addr < Config.memSize then s.setByte addr b else s).placeBytes (addr + 1) bs

end State

/-! ### Taking a fatal error -/

/-- The record `HC` takes for an error at a pc (10_state.md R30, 60_exceptions.md R151, R152). -/
def FatalError.record (pc : PcWord) : FatalError → HaltCause
  | .unknownInstruction opcode => .unknownInstruction opcode pc
  | .addressError kind index => .addressError kind index pc

/-- `raise`: the one way a fatal error takes effect (60_exceptions.md R154). The core stops, `HC` records the error with
the pc of the faulting instruction, and nothing else changes; pc keeps that address. There is no return from it (R155). -/
def State.raise (s : State) (e : FatalError) : State := { s with running := false, hc := e.record s.pc }

/-! ### Memory access and the stack -/

/-- `MemRead(addr, 1)` (20_memory.md R51): never wraps, never truncates. -/
def memRead (s : State) (addr : Nat) : Except FatalError Byte :=
  if addr < Config.memSize then .ok (s.byteAt addr) else .error (.addressError .memory addr)

/-- `MemWrite(addr, 1, v)` (20_memory.md R52): any address 0..255 may be written. -/
def memWrite (s : State) (addr : Nat) (v : Byte) : Except FatalError State :=
  if addr < Config.memSize then .ok (s.setByte addr v) else .error (.addressError .memory addr)

/-- The address `Push` stores to: the stack pointer decremented modulo 256 (20_memory.md R55). -/
def pushAddr (s : State) : Byte := s.sp - 1

/-- `Push(v)` (R55): decrement x[7] modulo 256, then write at the resulting address. -/
def push (v : Byte) (s : State) : Except FatalError State :=
  let t := s.setReg Config.spIndex (pushAddr s)
  memWrite t t.sp.toNat v

/-- `Pop()` (R56): read at x[7], then increment x[7] modulo 256. The cell keeps its value. -/
def pop (s : State) : Except FatalError (Byte × State) := do
  let v ← memRead s s.sp.toNat
  .ok (v, s.setReg Config.spIndex (s.sp + 1))

/-! ### The instruction cycle (30_encoding.md R81) -/

/-- Fetch (R82): the three bytes at pc, pc + 1 and pc + 2 into `IR`, `OPA`, `OPB`, in that order, whatever the
instruction's length; the first address above 255 raises. The latches loaded before a raise keep their bytes (log entry 4). -/
def fetch (s : State) : State × Option FatalError :=
  match memRead s s.pc.toNat with
  | .error e => (s, some e)
  | .ok b0 =>
    match memRead s (s.pc.toNat + 1) with
    | .error e => ({ s with ir := b0 }, some e)
    | .ok b1 =>
      match memRead s (s.pc.toNat + 2) with
      | .error e => ({ s with ir := b0, opa := b1 }, some e)
      | .ok b2 => ({ s with ir := b0, opa := b1, opb := b2 }, none)

/-- The state in which the instruction at pc executes: the three bytes of its window latched (R82, 10_state.md R32). -/
def State.latched (s : State) : State :=
  { s with ir := s.byteAt s.pc.toNat, opa := s.byteAt (s.pc.toNat + 1), opb := s.byteAt (s.pc.toNat + 2) }

/-- The pc advance (R84): by the encoded length, unless the opcode's own-PC bit is set. -/
def advance (opcode : Byte) (s : State) : State :=
  if opOwnPc opcode then s else s.setPc (s.pc + BitVec.ofNat 9 (opLength opcode))

/-- The end of an instruction's cycle, from the state `s` it began in and what its rule answered: a raise takes the fatal
error in `s` itself, so no write of the instruction is kept (60_exceptions.md R154); a rule that completes is followed by
the pc advance (30_encoding.md R84). -/
def finish (o : Op) (s : State) (r : Except FatalError State) : Host.Outcome State Fault Refusal :=
  match r with
  | .error e => .next (s.raise e)
  | .ok t => .next (advance (opcodeOf o) t)

end Sys2Proof.Machine
end

