-- ==== Sys2Proof/Machine/Operands.lean ====
section
/-!
DEFINITION. The operand forms (30_encoding.md R74, R75): a register operand, a whole byte checked against 0..7 and never
masked, and an imm8, a whole byte taken as it is.
-/

namespace Sys2Proof.Machine

/-- `CheckReg(b)` (10_state.md R23): the register a whole operand byte names, or AddressError(REGISTER, b). -/
def checkReg (b : Byte) : Except FatalError (Fin 8) :=
  if h : b.toNat < 8 then .ok ⟨b.toNat, h⟩ else .error (.addressError .register b.toNat)

/-- The value of an imm8 operand: the byte, not extended, scaled or shifted (R74). Only LDI has one. -/
def immediate (b : Byte) : Byte := b

/-- Check one register operand, then run the rest of the rule with the register it names. -/
def withReg (a : Byte) (k : Fin 8 → Except FatalError State) : Except FatalError State := do
  let i ← checkReg a
  k i

/-- Check operand a, then operand b (60_exceptions.md R157), then run the rest of the rule with the two registers. -/
def withRegs (a b : Byte) (k : Fin 8 → Fin 8 → Except FatalError State) : Except FatalError State := do
  let i ← checkReg a
  let j ← checkReg b
  k i j

/-- A byte as a pc target, zero-extended to 9 bits (43_control_transfer.md R130). -/
def target (v : Byte) : PcWord := v.setWidth 9

/-- The address after a 2-byte instruction at pc, `pc + 2`: the fall-through of JEQ and JNE (R130). -/
def fallThrough (s : State) : PcWord := s.pc + 2

/-- CALL's return address, `pc + 2` as the 8-bit value the stack holds (R130; it fits whenever pc ≤ 253, log entry 9). -/
def returnAddr (s : State) : Byte := (s.pc + 2).setWidth 8

end Sys2Proof.Machine
end

