-- ==== Sys2Proof/Machine/Flags.lean ====
section
/-!
DEFINITION. The flag register `FL` (10_state.md R27, R28): bit 0 is Equal, bits 7:1 are reserved and read 0. CMP alone
writes it, and it writes the whole byte.
-/

namespace Sys2Proof.Machine

/-- The byte CMP writes to `FL`: 0x01 if the operands are equal, else 0x00 (41_alu.md R114). -/
def equalFlag (v w : Byte) : Byte := if v = w then 0x01 else 0x00

/-- `FL.E`, bit 0 of `FL` (10_state.md R27). -/
def State.flagE (s : State) : Bool := s.fl.getLsbD 0

/-- `FL <- v` (41_alu.md R114). -/
def State.setFl (s : State) (v : Byte) : State := { s with fl := v }

end Sys2Proof.Machine
end

