-- ==== Sys2Proof/Machine/Alu.lean ====
section
/-!
DEFINITION. The ALU instructions (41_alu.md): unsigned 8-bit operands and results, arithmetic modulo 256, no overflow
signal (R110). CMP writes only `FL`; the others write only `x[a]`.
-/

namespace Sys2Proof.Machine

/-- The shape of a two-register ALU instruction that writes `x[a]` (R111 to R113, R115 to R117): check a, check b, read
both, write once. -/
def aluBinary (o : Op) (f : Byte → Byte → Byte) (a b : Byte) (s : State) : Host.Outcome State Fault Refusal :=
  finish o s (withRegs a b fun i j => .ok (s.setReg i (f (s.reg i) (s.reg j))))

/-- `(v + w) mod 256` (R111). -/
def aluAdd (v w : Byte) : Byte := BitVec.ofNat 8 ((v.toNat + w.toNat) % 256)

/-- `(v - w) mod 256`: the exact difference, narrowed to the value in 0..255 congruent to it (R112). -/
def aluSub (v w : Byte) : Byte := BitVec.ofInt 8 (((v.toNat : Int) - (w.toNat : Int)) % 256)

/-- `(v * w) mod 256`, the low 8 bits of the 16-bit product (R113). -/
def aluMul (v w : Byte) : Byte := BitVec.ofNat 8 ((v.toNat * w.toNat) % 256)

/-- ADD (R111). -/
def execAdd (a b : Byte) (s : State) : Host.Outcome State Fault Refusal := aluBinary .add aluAdd a b s

/-- SUB (R112). -/
def execSub (a b : Byte) (s : State) : Host.Outcome State Fault Refusal := aluBinary .sub aluSub a b s

/-- MUL (R113). -/
def execMul (a b : Byte) (s : State) : Host.Outcome State Fault Refusal := aluBinary .mul aluMul a b s

/-- CMP (R114): `FL` becomes 0x01 or 0x00; no general register is written. -/
def execCmp (a b : Byte) (s : State) : Host.Outcome State Fault Refusal :=
  finish .cmp s (withRegs a b fun i j => .ok (s.setFl (equalFlag (s.reg i) (s.reg j))))

/-- AND (R115). -/
def execAnd (a b : Byte) (s : State) : Host.Outcome State Fault Refusal := aluBinary .and (fun v w => v &&& w) a b s

/-- OR (R116). -/
def execOr (a b : Byte) (s : State) : Host.Outcome State Fault Refusal := aluBinary .or (fun v w => v ||| w) a b s

/-- XOR (R117). -/
def execXor (a b : Byte) (s : State) : Host.Outcome State Fault Refusal := aluBinary .xor (fun v w => v ^^^ w) a b s

/-- NOT (R118): the complement of `x[a]`. -/
def execNot (a : Byte) (s : State) : Host.Outcome State Fault Refusal :=
  finish .not s (withReg a fun i => .ok (s.setReg i (~~~ s.reg i)))

end Sys2Proof.Machine
end

