-- ==== Sys2Proof/Machine/ControlTransfer.lean ====
section
/-!
DEFINITION. CALL, RET, JMP, JEQ and JNE (43_control_transfer.md). Each has the own-PC bit set and writes the pc on every
path (R130).
-/

namespace Sys2Proof.Machine

/-- CALL (R131): push `pc + 2`, then jump to `x[a]` as it reads AFTER the push (the spec's decision D10: `CALL R7` jumps to
the decremented stack pointer). -/
def execCall (a : Byte) (s : State) : Host.Outcome State Fault Refusal :=
  finish .call s (withReg a fun i => do
    let t ← push (returnAddr s) s
    .ok (t.setPc (target (t.reg i))))

/-- RET (R132): `pc <- Pop()`. -/
def execRet (s : State) : Host.Outcome State Fault Refusal :=
  finish .ret s (do
    let (v, t) ← pop s
    .ok (t.setPc (target v)))

/-- JMP (R133). -/
def execJmp (a : Byte) (s : State) : Host.Outcome State Fault Refusal :=
  finish .jmp s (withReg a fun i => .ok (s.setPc (target (s.reg i))))

/-- The shape of JEQ and JNE: a taken branch checks and reads its register, a branch not taken does neither and goes on
at `pc + 2` (R134, R135; the spec's decision D11). -/
def branchRule (taken : Bool) (a : Byte) (s : State) : Except FatalError State :=
  if taken then withReg a fun i => .ok (s.setPc (target (s.reg i)))
  else .ok (s.setPc (fallThrough s))

/-- JEQ (R134): jump if `FL.E = 1`. -/
def execJeq (a : Byte) (s : State) : Host.Outcome State Fault Refusal :=
  finish .jeq s (branchRule s.flagE a s)

/-- JNE (R135): jump if `FL.E = 0`. -/
def execJne (a : Byte) (s : State) : Host.Outcome State Fault Refusal :=
  finish .jne s (branchRule (!s.flagE) a s)

end Sys2Proof.Machine
end

