-- ==== Sys2Proof/Machine/MachineControl.lean ====
section
/-!
DEFINITION. HLT, LDI and PRN (40_hlt_ldi_prn.md).
-/

namespace Sys2Proof.Machine

/-- HLT (R100): `running <- false`, `HC <- (HALT, pc)`; the pc advance follows. -/
def execHlt (s : State) : Host.Outcome State Fault Refusal :=
  finish .hlt s (.ok s.halt)

/-- LDI (R101): `x[a] <- b`. -/
def execLdi (a b : Byte) (s : State) : Host.Outcome State Fault Refusal :=
  finish .ldi s (withReg a fun i => .ok (s.setReg i (immediate b)))

/-- PRN (R102): append `x[a]` to the output stream. -/
def execPrn (a : Byte) (s : State) : Host.Outcome State Fault Refusal :=
  finish .prn s (withReg a fun i => .ok (s.emit (s.reg i)))

end Sys2Proof.Machine
end

