-- ==== Sys2Proof/Machine/Stack.lean ====
section
/-!
DEFINITION. PUSH and POP (42_stack.md), over the stack primitives of 20_memory.md R55 and R56.
-/

namespace Sys2Proof.Machine

/-- PUSH (R120): the register is read before the push changes x[7]. -/
def execPush (a : Byte) (s : State) : Host.Outcome State Fault Refusal :=
  finish .push s (withReg a fun i => push (s.reg i) s)

/-- POP (R121): the register is checked first, and written after x[7] is incremented, so that `POP R7` leaves the popped
byte in x[7]. -/
def execPop (a : Byte) (s : State) : Host.Outcome State Fault Refusal :=
  finish .pop s (withReg a fun i => do
    let (v, t) ← pop s
    .ok (t.setReg i v))

end Sys2Proof.Machine
end

