-- ==== Sys2Proof/Machine/Cycle.lean ====
section
/-!
DEFINITION. The instruction cycle of a running core: fetch, decode, execute, advance (30_encoding.md R81).
-/

namespace Sys2Proof.Machine

/-- One `Step` of a running core (R81): fetch, decode, execute and advance; a fetch or decode error takes the fatal error
with the pc still at the instruction (R157: fetch before decode before execute). -/
def cycle (s : State) : Host.Outcome State Fault Refusal :=
  match fetch s with
  | (t, some e) => .next (t.raise e)
  | (t, none) =>
    match decode t.ir t.opa t.opb with
    | .unknownInstruction opcode => .next (t.raise (.unknownInstruction opcode))
    | .instr i => exec i t

end Sys2Proof.Machine
end

