-- ==== Sys2Proof/Machine/Step.lean ====
section
/-!
DEFINITION. The single-step operation (30_encoding.md R81, R86; 70_reset_and_hazards.md R184, R185) and the placing of an
instruction word where it fetches.
-/

namespace Sys2Proof.Machine

/-- The single-step operation `step()`, the model's step relation (R86). Running: one `Step`. Loaded: `running` becomes
true and one `Step` follows (R184). Halted: there is no step (R155, R185). -/
def step (s : State) : Host.Outcome State Fault Refusal :=
  if s.running then cycle s
  else if s.hc = .none then cycle s.start
  else .fault .halted

/-- `s` with the instruction of an opcode-table word stored where `step` fetches next: the three bytes of the fetch window
at pc. A program comes from outside, through the loader, in the Loaded state (70_reset_and_hazards.md R182, R183), and a
`step` in Loaded starts the core by itself (R184), so nothing else is set (log entry 3). -/
def State.withFetchWord (s : State) (nbits w : Nat) : State :=
  s.placeBytes s.pc.toNat [tableByte nbits w 0, tableByte nbits w 1, tableByte nbits w 2]

end Sys2Proof.Machine
end

