-- ==== Sys2Proof/Machine/Ports.lean ====
section
/-!
DEFINITION. The ports of the block (70_reset_and_hazards.md R186): `load_write`, `host_read`, `run`, `step`, `snapshot`,
`out` and `status`, with the loader (R183) and the observer's rendering (40_hlt_ldi_prn.md R103).
-/

namespace Sys2Proof.Machine

/-- What a host accessor call answers when it fails; the error goes back to the caller (20_memory.md R64). -/
inductive HostError where
  /-- The address is outside 0..255 (R64). -/
  | addressError (index : Nat)
  /-- `load_write` outside the Loaded state: the host has no such move (R187; log entry 6). -/
  | notLoaded
deriving DecidableEq, Repr

namespace State

/-- Port `host_read`: the byte at an address, or AddressError to the caller. Pure: no state changes (R64, R187). -/
def hostRead (s : State) (addr : Nat) : Except HostError Byte :=
  if addr < Config.memSize then .ok (s.byteAt addr) else .error (.addressError addr)

/-- Port `load_write`, in the Loaded state (R187): overwrites the cell unconditionally, or answers AddressError, the state
unchanged (R64). -/
def loadWrite (s : State) (addr : Nat) (v : Byte) : Except HostError State :=
  if s.isLoaded then
    if addr < Config.memSize then .ok (s.setByte addr v) else .error (.addressError addr)
  else .error .notLoaded

/-- The loader (R183): the bytes of a program at ascending addresses, in order. It stops at the first write that fails and
answers the state its successful writes left with that error; every later write would fail too (log entry 7). -/
def loadFrom (s : State) (addr : Nat) : List Byte → State × Option HostError
  | [] => (s, none)
  | b :: bs =>
    match s.loadWrite addr b with
    | .ok t => t.loadFrom (addr + 1) bs
    | .error e => (s, some e)

/-- Port `step` as the host sees it: the post-step state (30_encoding.md R86); in Halted no step is performed and no state
changes (R185). -/
def hostStep (s : State) : State :=
  match step s with
  | .next t => t
  | .fault _ => s
  | .refused _ => s

/-- `n` calls of `step()`. -/
def hostSteps : Nat → State → State
  | 0, s => s
  | n + 1, s => hostSteps n s.hostStep

/-- At most `n` turns of the loop of R85: `Step` while `running = true`. Nothing bounds a run (R190), so a run that has not
ended after `n` turns is answered as it stands. -/
def runLoop : Nat → State → State
  | 0, s => s
  | n + 1, s =>
    if s.running then
      match cycle s with
      | .next t => runLoop n t
      | .fault _ => s
      | .refused _ => s
    else s

/-- Port `run`, cut after `n` turns of its loop: in Loaded `running` becomes true first (R184), in Halted nothing happens
(R185). -/
def hostRun (n : Nat) (s : State) : State := runLoop n (if s.isLoaded then s.start else s)

/-- Port `status`: `running` and `HC` (R186). -/
def status (s : State) : Bool × HaltCause := (s.running, s.hc)

end State

/-- The numeric cause code of `HC` (10_state.md R30). -/
def HaltCause.code : HaltCause → Nat
  | .none => 0
  | .halt _ => 1
  | .unknownInstruction _ _ => 2
  | .addressError _ _ _ => 3

/-- The view `snapshot()` returns (60_exceptions.md R164). -/
structure Snapshot where
  pc : PcWord
  flag : Byte
  registers : Vector Byte 8
  /-- mem[pc], mem[pc+1], mem[pc+2], each absent above 255 (R165). -/
  next3bytes : List (Option Byte)
deriving DecidableEq, Repr

/-- The byte at an address as the observer sees it: absent above 255, no error (R165). -/
def State.observedByte (s : State) (addr : Nat) : Option Byte :=
  if addr < Config.memSize then some (s.byteAt addr) else none

/-- Port `snapshot` (R164): read-only, and answered in every state, the Loaded state included. R187's row allows it between
steps or after the halt and does not say whether before the first step (DESIGN CHOICE, log entry 13). -/
def State.snapshot (s : State) : Snapshot where
  pc := s.pc
  flag := s.fl
  registers := s.x
  next3bytes := [s.observedByte s.pc.toNat, s.observedByte (s.pc.toNat + 1), s.observedByte (s.pc.toNat + 2)]

/-- The character of a decimal digit. -/
def digitChar (n : Nat) : Char := Char.ofNat (48 + n)

/-- The unsigned decimal digits of a byte, no sign, no leading zeros, "0" for zero. -/
def decimalDigits (v : Byte) : List Char :=
  let n := v.toNat
  if n < 10 then [digitChar n]
  else if n < 100 then [digitChar (n / 10), digitChar (n % 10)]
  else [digitChar (n / 100), digitChar (n / 10 % 10), digitChar (n % 10)]

/-- One entry of `out` as the observer renders it: its decimal digits and one line feed (40_hlt_ldi_prn.md R103). -/
def renderEntry (v : Byte) : List Char := decimalDigits v ++ [Char.ofNat 10]

/-- Port `out` rendered: one line per entry, in order (R103, R104). -/
def State.renderedOutput (s : State) : List Char := s.out.flatMap renderEntry

end Sys2Proof.Machine
end

