-- ==== Sys2Proof/Machine/Assembler.lean ====
section
/-!
DEFINITION. The assembler syntax (30_encoding.md R88, R89): one instruction as text, read and written. Text is a list of
characters. The syntax has no effect on the hardware; every mnemonic assembles to exactly its own encoding and there is no
pseudo-instruction.
-/

namespace Sys2Proof.Machine

/-- The mnemonic as it is written (30_encoding.md R77). -/
def mnemonicText : Op → List Char
  | .hlt => ['H', 'L', 'T']
  | .ldi => ['L', 'D', 'I']
  | .prn => ['P', 'R', 'N']
  | .add => ['A', 'D', 'D']
  | .sub => ['S', 'U', 'B']
  | .mul => ['M', 'U', 'L']
  | .cmp => ['C', 'M', 'P']
  | .and => ['A', 'N', 'D']
  | .or => ['O', 'R']
  | .xor => ['X', 'O', 'R']
  | .not => ['N', 'O', 'T']
  | .push => ['P', 'U', 'S', 'H']
  | .pop => ['P', 'O', 'P']
  | .call => ['C', 'A', 'L', 'L']
  | .ret => ['R', 'E', 'T']
  | .jmp => ['J', 'M', 'P']
  | .jeq => ['J', 'E', 'Q']
  | .jne => ['J', 'N', 'E']

/-- The value of one digit in a base up to 16, either letter case (log entry 10). -/
def digitValue (base : Nat) (c : Char) : Option Nat :=
  let n := c.toNat
  let d := if 48 ≤ n ∧ n ≤ 57 then n - 48
    else if 97 ≤ n ∧ n ≤ 102 then n - 87
    else if 65 ≤ n ∧ n ≤ 70 then n - 55
    else 16
  if d < base then some d else none

/-- The value of a run of digits after the value read so far. -/
def digitsValue (base : Nat) (acc : Nat) : List Char → Option Nat
  | [] => some acc
  | c :: cs => (digitValue base c).bind fun d => digitsValue base (acc * base + d) cs

/-- A nonempty run of digits. -/
def numberValue (base : Nat) : List Char → Option Nat
  | [] => none
  | c :: cs => digitsValue base 0 (c :: cs)

/-- An immediate: decimal, or with a `0x` or `0b` prefix (R88), in 0..255. -/
def parseImmediate (text : List Char) : Option Byte :=
  let n := match text with
    | '0' :: 'x' :: ds => numberValue 16 ds
    | '0' :: 'b' :: ds => numberValue 2 ds
    | ds => numberValue 10 ds
  n.bind fun v => if v < 256 then some (BitVec.ofNat 8 v) else none

/-- A register: `r<n>` or `R<n>` with n in 0..7 (R88). -/
def parseRegister : List Char → Option Byte
  | [c, d] => if c = 'r' ∨ c = 'R' then (digitValue 8 d).map (BitVec.ofNat 8) else none
  | _ => none

/-- Split at the first occurrence of a character. -/
def splitAtFirst (sep : Char) : List Char → List Char × Option (List Char)
  | [] => ([], none)
  | c :: cs =>
    if c = sep then ([], some cs)
    else
      let (head, tail) := splitAtFirst sep cs
      (c :: head, tail)

/-- The operand texts of what follows the mnemonic: none, one, or two separated by a comma. -/
def splitOperands : Option (List Char) → List (List Char)
  | none => []
  | some text =>
    match splitAtFirst ',' text with
    | (a, none) => [a]
    | (a, some b) => [a, b]

/-- The mnemonic a text is, if it is one. -/
def opOfText (text : List Char) : Option Op := Op.all.find? fun o => decide (mnemonicText o = text)

/-- The operand kinds of an instruction, in encoding order (30_encoding.md R77, column Operands). -/
inductive OperandKind where
  | register
  | imm8
deriving DecidableEq, Repr

/-- Operand kinds by mnemonic (R77). -/
def operandKinds : Op → List OperandKind
  | .hlt => []
  | .ret => []
  | .ldi => [.register, .imm8]
  | .add => [.register, .register]
  | .sub => [.register, .register]
  | .mul => [.register, .register]
  | .cmp => [.register, .register]
  | .and => [.register, .register]
  | .or => [.register, .register]
  | .xor => [.register, .register]
  | .prn => [.register]
  | .not => [.register]
  | .push => [.register]
  | .pop => [.register]
  | .call => [.register]
  | .jmp => [.register]
  | .jeq => [.register]
  | .jne => [.register]

/-- One operand's byte from its text. -/
def parseOperand : OperandKind → List Char → Option Byte
  | .register, text => parseRegister text
  | .imm8, text => parseImmediate text

/-- The operand bytes of a whole line: as many texts as the instruction has operands. -/
def parseOperands : List OperandKind → List (List Char) → Option (List Byte)
  | [], [] => some []
  | k :: ks, t :: ts => (parseOperand k t).bind fun b => (parseOperands ks ts).map fun bs => b :: bs
  | _, _ => none

/-- An instruction from one line of assembler text, or none for a line that is not of the syntax of R88. -/
def assemble (line : List Char) : Option Instr :=
  let (name, rest) := splitAtFirst ' ' line
  (opOfText name).bind fun o =>
    (parseOperands (operandKinds o) (splitOperands rest)).map fun bs =>
      instrOf (bs.getD 0 0) (bs.getD 1 0) o

/-- The text of a register operand, `r<n>`. -/
def registerText (b : Byte) : List Char := ['r', digitChar b.toNat]

/-- The text of an operand byte: an immediate in decimal. -/
def operandText : OperandKind → Byte → List Char
  | .register, b => registerText b
  | .imm8, b => decimalDigits b

/-- The operand texts, separated by a comma. -/
def operandsText : List OperandKind → List Byte → List Char
  | [k], [b] => operandText k b
  | k :: ks, b :: bs => operandText k b ++ (',' :: operandsText ks bs)
  | _, _ => []

/-- A well-formed instruction as a line of assembler text in the form of R88 (`LDI r0,8`). -/
def assemblerText (i : Instr) : List Char :=
  match i.operands with
  | [] => mnemonicText i.op
  | bs => mnemonicText i.op ++ (' ' :: operandsText (operandKinds i.op) bs)

end Sys2Proof.Machine
end

