-- ==== Sys2Proof/Safety.lean ====
section
/-!
DEFINITION. What a good state and a safe run are, in the terms the statements use: the invariant every step keeps, which
instructions can raise which fatal error (60_exceptions.md R153), which registers an instruction writes (10_state.md R22),
and where it stores (20_memory.md R58).
-/

namespace Sys2Proof.Safety

open Sys2Proof.Machine

/-- The halt record agrees with the pc it was taken at: HLT leaves pc one past itself (R84, R100); a fatal error leaves pc
at the faulting instruction (R154), an unknown opcode is not in the decode table (R151), a fetch error is at 254..256 and
reports 256, and a register error reports an operand byte above 7 (R152). -/
def RecordOk (pc : PcWord) : HaltCause → Prop
  | .none => True
  | .halt p => p.toNat ≤ 253 ∧ pc = p + 1
  | .unknownInstruction opcode p => pc = p ∧ p.toNat ≤ 253 ∧ lookupOp opcode = none
  | .addressError .memory index p => pc = p ∧ 254 ≤ p.toNat ∧ p.toNat ≤ 256 ∧ index = 256
  | .addressError .register index p => pc = p ∧ p.toNat ≤ 253 ∧ 8 ≤ index ∧ index ≤ 255

/-- The invariant of the core. -/
structure Inv (s : State) : Prop where
  /-- Memory is in its canonical form: every cell in 0..255, no duplicate (20_memory.md R50). -/
  memWf : Memory.wf s.mem = true
  /-- pc takes the values 0..256 (10_state.md R24, R26). -/
  pcBound : s.pc.toNat ≤ 256
  /-- Bits 7:1 of FL read 0 (10_state.md R27). -/
  flReserved : s.fl.toNat ≤ 1
  /-- A running core has not stopped (10_state.md R29, R30). -/
  runningNone : s.running = true → s.hc = .none
  /-- The halt record is consistent. -/
  record : RecordOk s.pc s.hc

/-- `HC` holds a fatal error (60_exceptions.md R150). -/
def IsFatal : HaltCause → Bool
  | .none => false
  | .halt _ => false
  | .unknownInstruction _ _ => true
  | .addressError _ _ _ => true

/-- A run is safe while no fatal error has been taken. -/
def Safe (s : State) : Prop := IsFatal s.hc = false

/-- The first register operand byte above 7 among those given. -/
def firstBadReg : List Byte → Option Byte
  | [] => none
  | b :: bs => if b.toNat < 8 then firstBadReg bs else some b

/-- The operand byte an executed instruction reports in AddressError(REGISTER), if it raises one (60_exceptions.md R153,
R157): the first register operand above 7; JEQ only with E = 1, JNE only with E = 0. -/
def badOperand (e : Bool) : Instr → Option Byte
  | .jeq a => if e then firstBadReg [a] else none
  | .jne a => if e then none else firstBadReg [a]
  | i => firstBadReg i.regOperands

/-- The register indices an instruction may write (the table of 10_state.md R22). -/
def writtenRegs : Instr → List Nat
  | .ldi a _ => [a.toNat]
  | .add a _ => [a.toNat]
  | .sub a _ => [a.toNat]
  | .mul a _ => [a.toNat]
  | .and a _ => [a.toNat]
  | .or a _ => [a.toNat]
  | .xor a _ => [a.toNat]
  | .not a => [a.toNat]
  | .pop a => [7, a.toNat]
  | .push _ => [7]
  | .call _ => [7]
  | .ret => [7]
  | .cmp _ _ => []
  | .hlt => []
  | .prn _ => []
  | .jmp _ => []
  | .jeq _ => []
  | .jne _ => []

/-- The address an instruction stores to in a state, if it is one that stores (20_memory.md R58: PUSH and CALL, through
Push). -/
def storeAddr (s : State) : Instr → Option Nat
  | .push _ => some (pushAddr s).toNat
  | .call _ => some (pushAddr s).toNat
  | _ => none

/-- What the three bytes of the fetch window at pc decode to (30_encoding.md R82, R83). -/
def windowInstr (s : State) : Decoded :=
  decode (s.byteAt s.pc.toNat) (s.byteAt (s.pc.toNat + 1)) (s.byteAt (s.pc.toNat + 2))

/-- The ALU instructions that compute (41_alu.md). -/
def isAlu : Instr → Bool
  | .add _ _ => true
  | .sub _ _ => true
  | .mul _ _ => true
  | .cmp _ _ => true
  | .and _ _ => true
  | .or _ _ => true
  | .xor _ _ => true
  | .not _ => true
  | _ => false

/-- The encoding clause of an instruction rule: the opcode byte decodes to the instruction with any operand bytes, and has
the rule's length and own-PC bit (30_encoding.md R72, R73, R77). -/
def EncodedAs (opcode : Byte) (mk : Byte → Byte → Instr) (length : Nat) (ownPc : Bool) : Prop :=
  (∀ a b, decode opcode a b = .instr (mk a b)) ∧ opLength opcode = length ∧ opOwnPc opcode = ownPc

/-- An instruction raises AddressError(REGISTER) with a given operand byte (10_state.md R23). -/
def RaisesRegister (i : Instr) (s : State) (b : Byte) : Prop :=
  exec i s = .next (s.raise (.addressError .register b.toNat))

/-- The exceptions clause of a one-register rule: AddressError(REGISTER, a) if a > 7. -/
def ChecksA (mk : Byte → Instr) : Prop := ∀ s a, 7 < a.toNat → RaisesRegister (mk a) s a

/-- The exceptions clause of a two-register rule: AddressError(REGISTER, a) if a > 7; otherwise AddressError(REGISTER, b)
if b > 7. -/
def ChecksAB (mk : Byte → Byte → Instr) : Prop :=
  ∀ s a b, (7 < a.toNat → RaisesRegister (mk a b) s a) ∧ (a.toNat ≤ 7 → 7 < b.toNat → RaisesRegister (mk a b) s b)

/-- A rule of 41_alu.md for a two-register instruction that writes x[a]: its encoding (length 3, own-PC 0); for operands in
0..7, x[a] becomes the value `result` allows for the two values read, pc advances by 3, and nothing else changes; its
exceptions. -/
def AluRule (opcode : Byte) (mk : Byte → Byte → Instr) (result : Byte → Byte → Byte → Prop) : Prop :=
  EncodedAs opcode mk 3 false ∧
  (∀ (s : State) (a b : Byte) (ha : a.toNat < 8) (hb : b.toNat < 8), ∃ v : Byte,
    result (s.reg ⟨a.toNat, ha⟩) (s.reg ⟨b.toNat, hb⟩) v ∧
    exec (mk a b) s = .next { s with x := s.x.set a.toNat v, pc := s.pc + 3 }) ∧
  ChecksAB mk

/-- A fetch from 254 on never reaches its instruction: one step of a running core there takes AddressError(MEMORY, 256). -/
def TopFetchFaults : Prop :=
  ∀ s : State, s.running = true → 254 ≤ s.pc.toNat → s.pc.toNat ≤ 256 →
    ∃ t, step s = .next t ∧ t.running = false ∧ t.hc = .addressError .memory 256 s.pc

/-- A run of `run()` that ends: after finitely many steps the core is Halted in `t` (70_reset_and_hazards.md R188). -/
def EndsIn (s t : State) : Prop := ∃ n, s.hostRun n = t ∧ t.running = false ∧ t.hc ≠ .none

end Sys2Proof.Safety
end

