-- ==== Sys2Proof/Certificates/Slice0/Obligations.lean ====
section
/-!
DEFINITION. The statements for the provers. Each docstring names the rule of spec/ it formalises, and what in it is the
spec's own decision (D<n> of 92_eei_decisions.md) or this model's choice (a log entry).
-/

open Sys2Proof Sys2Proof.Machine Sys2Proof.Safety

/-! ### The instruction rules -/

/-- HLT (40_hlt_ldi_prn.md): stops the core, records (HALT, pc) (the record is the spec's decision D8), advances pc by 1
and changes nothing else; afterwards there is no step (`step` answering `halted` there is log entry 5), and HLT at 254 or
255 never executes. -/
def Obligations.HltStopsAndRecords : Prop :=
  EncodedAs 0x01 (fun _ _ => .hlt) 1 false ∧
  (∀ s : State, ∃ t, exec .hlt s = .next t ∧
    t = { s with running := false, hc := .halt s.pc, pc := s.pc + 1 } ∧ step t = .fault .halted) ∧
  TopFetchFaults

/-- LDI (40_hlt_ldi_prn.md): x[a] becomes the immediate byte unmodified, whatever it is, pc advances by 3, nothing else
changes; a register operand above 7 raises. -/
def Obligations.LdiLoadsImmediate : Prop :=
  EncodedAs 0x82 .ldi 3 false ∧
  (∀ (s : State) (a b : Byte) (_ha : a.toNat < 8),
    exec (.ldi a b) s = .next { s with x := s.x.set a.toNat b, pc := s.pc + 3 }) ∧
  (∀ b, ChecksA fun a => .ldi a b)

/-- R102 PRN: exactly one entry, the value of x[a], is appended to `out`; no register, flag or memory cell changes; a
faulting PRN emits nothing (`raise` keeps `out`); the value prints unsigned, 0xFF as "255". -/
def Obligations.PrnAppendsRegister : Prop :=
  EncodedAs 0x47 (fun a _ => .prn a) 2 false ∧
  (∀ (s : State) (a : Byte) (ha : a.toNat < 8),
    exec (.prn a) s = .next { s with out := s.out ++ [s.reg ⟨a.toNat, ha⟩], pc := s.pc + 2 }) ∧
  ChecksA .prn ∧ (∀ (s : State) (e : FatalError), (s.raise e).out = s.out) ∧
  decimalDigits 0xFF = ['2', '5', '5']

/-- R111 ADD: x[a] <- (x[a] + x[b]) mod 256. The opcode byte is the spec's decision D1 (log entry 8). -/
def Obligations.AddWrapsModulo256 : Prop :=
  AluRule 0xA0 .add fun x y v => v.toNat = (x.toNat + y.toNat) % 256

/-- R112 SUB: x[a] <- (x[a] - x[b]) mod 256. The opcode byte is the spec's decision D1 (log entry 8). -/
def Obligations.SubWrapsModulo256 : Prop :=
  AluRule 0xA1 .sub fun x y v => (v.toNat : Int) = ((x.toNat : Int) - (y.toNat : Int)) % 256

/-- R113 MUL: x[a] <- the low 8 bits of the 16-bit product. The opcode byte is the spec's decision D1 (log entry 8). -/
def Obligations.MulKeepsLowByte : Prop :=
  AluRule 0xA2 .mul fun x y v => v.toNat = (x.toNat * y.toNat) % 256

/-- R114 CMP: FL becomes 0x01 when the two registers hold equal values and 0x00 otherwise, all of the byte; no general
register is written; a faulting CMP leaves FL unchanged (the spec's decision D9; D1 for the opcode byte; log entry 8). -/
def Obligations.CmpWritesEqualFlag : Prop :=
  EncodedAs 0xA7 .cmp 3 false ∧
  (∀ (s : State) (a b : Byte) (ha : a.toNat < 8) (hb : b.toNat < 8), ∃ f : Byte,
    exec (.cmp a b) s = .next { s with fl := f, pc := s.pc + 3 } ∧
    (s.reg ⟨a.toNat, ha⟩ = s.reg ⟨b.toNat, hb⟩ → f = 0x01) ∧
    (s.reg ⟨a.toNat, ha⟩ ≠ s.reg ⟨b.toNat, hb⟩ → f = 0x00)) ∧
  ChecksAB .cmp ∧ (∀ (s : State) (e : FatalError), (s.raise e).fl = s.fl)

/-- R115 AND: each bit of x[a] becomes the conjunction of the two registers' bits. The opcode byte is the spec's decision
D1 (log entry 8). -/
def Obligations.AndIsBitwise : Prop :=
  AluRule 0xA8 .and fun x y v => ∀ k < 8, v.getLsbD k = (x.getLsbD k && y.getLsbD k)

/-- R116 OR: each bit of x[a] becomes the disjunction of the two registers' bits. The opcode byte is the spec's decision
D1 (log entry 8). -/
def Obligations.OrIsBitwise : Prop :=
  AluRule 0xAA .or fun x y v => ∀ k < 8, v.getLsbD k = (x.getLsbD k || y.getLsbD k)

/-- R117 XOR: each bit of x[a] becomes the exclusive or of the two registers' bits. The opcode byte is the spec's decision
D1 (log entry 8). -/
def Obligations.XorIsBitwise : Prop :=
  AluRule 0xAB .xor fun x y v => ∀ k < 8, v.getLsbD k = (x.getLsbD k ^^ y.getLsbD k)

/-- R118 NOT: x[a] becomes 255 - x[a]; the byte after operand a is not used. The opcode byte is the spec's decision D1 (log
entry 8). -/
def Obligations.NotComplementsRegister : Prop :=
  EncodedAs 0x69 (fun a _ => .not a) 2 false ∧
  (∀ (s : State) (a : Byte) (ha : a.toNat < 8), ∃ v : Byte,
    v.toNat = 255 - (s.reg ⟨a.toNat, ha⟩).toNat ∧
    exec (.not a) s = .next { s with x := s.x.set a.toNat v, pc := s.pc + 2 }) ∧
  ChecksA .not

/-- PUSH (42_stack.md): the value x[a] has before the push is written at x[7] - 1 modulo 256, and x[7] becomes that
address (the wrap at 0 is the spec's decision D4). For `PUSH R7` the old stack pointer is stored. -/
def Obligations.PushStoresBelowStackPointer : Prop :=
  EncodedAs 0x45 (fun a _ => .push a) 2 false ∧
  (∀ (s : State) (a : Byte) (ha : a.toNat < 8), ∃ addr : Byte,
    (addr.toNat : Int) = ((s.sp.toNat : Int) - 1) % 256 ∧
    exec (.push a) s = .next { s with
      x := s.x.set 7 addr, mem := Memory.write s.mem addr.toNat (s.reg ⟨a.toNat, ha⟩), pc := s.pc + 2 }) ∧
  ChecksA .push

/-- POP (42_stack.md): the byte at x[7] is read, x[7] is incremented modulo 256 (the wrap is the spec's decision D4), then
x[a] takes the byte, so that `POP R7` leaves the popped byte in x[7]; memory does not change; a faulting POP leaves x[7]. -/
def Obligations.PopReadsAtStackPointer : Prop :=
  EncodedAs 0x46 (fun a _ => .pop a) 2 false ∧
  (∀ (s : State) (a : Byte) (_ha : a.toNat < 8), ∃ sp' : Byte,
    sp'.toNat = (s.sp.toNat + 1) % 256 ∧
    exec (.pop a) s = .next { s with
      x := (s.x.set 7 sp').set a.toNat (s.byteAt s.sp.toNat), pc := s.pc + 2 }) ∧
  ChecksA .pop

/-- CALL (43_control_transfer.md): for an instruction that can be fetched (pc ≤ 253), pc + 2 is pushed and pc becomes x[a]
as it reads after the push (the spec's decision D10), so that `CALL R7` goes to the decremented stack pointer (D4 for its
wrap). -/
def Obligations.CallPushesReturnAddress : Prop :=
  EncodedAs 0x50 (fun a _ => .call a) 2 true ∧
  (∀ (s : State) (a : Byte) (ha : a.toNat < 8), s.pc.toNat ≤ 253 → ∃ (addr ret : Byte) (dest : PcWord),
    (addr.toNat : Int) = ((s.sp.toNat : Int) - 1) % 256 ∧ ret.toNat = s.pc.toNat + 2 ∧
    dest.toNat = (if a.toNat = 7 then addr else s.reg ⟨a.toNat, ha⟩).toNat ∧
    exec (.call a) s = .next { s with x := s.x.set 7 addr, mem := Memory.write s.mem addr.toNat ret, pc := dest }) ∧
  ChecksA .call

/-- R132 RET: pc becomes the byte at x[7], zero-extended, and x[7] is incremented; no exception, no operand; a RET, like any
instruction, at 254 or above never executes, and a return there faults at the next fetch (the spec's decisions D1 for the
opcode byte, D3 for the fetch, D4 for the wrap; log entry 8). -/
def Obligations.RetPopsProgramCounter : Prop :=
  EncodedAs 0x11 (fun _ _ => .ret) 1 true ∧
  (∀ s : State, ∃ (sp' : Byte) (dest : PcWord),
    sp'.toNat = (s.sp.toNat + 1) % 256 ∧ dest.toNat = (s.byteAt s.sp.toNat).toNat ∧
    exec .ret s = .next { s with x := s.x.set 7 sp', pc := dest }) ∧
  TopFetchFaults

/-- R133 JMP: pc becomes x[a], zero-extended; a JMP to its own address leaves the state as it is. The opcode byte is the
spec's decision D1 (log entry 8). -/
def Obligations.JmpGoesToRegister : Prop :=
  EncodedAs 0x54 (fun a _ => .jmp a) 2 true ∧
  (∀ (s : State) (a : Byte) (ha : a.toNat < 8), ∃ dest : PcWord,
    dest.toNat = (s.reg ⟨a.toNat, ha⟩).toNat ∧ exec (.jmp a) s = .next { s with pc := dest } ∧
    (dest = s.pc → exec (.jmp a) s = .next s)) ∧
  ChecksA .jmp

/-- JEQ (43_control_transfer.md): taken exactly when FL.E = 1; the taken path checks its register, the other reads none
and goes to pc + 2 whatever the operand byte (the spec's decision D11). FL does not change. -/
def Obligations.JeqBranchesOnEqual : Prop :=
  EncodedAs 0x55 (fun a _ => .jeq a) 2 true ∧
  (∀ (s : State) (a : Byte), s.fl.getLsbD 0 = true →
    (∀ ha : a.toNat < 8, ∃ dest : PcWord, dest.toNat = (s.reg ⟨a.toNat, ha⟩).toNat ∧
      exec (.jeq a) s = .next { s with pc := dest }) ∧
    (7 < a.toNat → RaisesRegister (.jeq a) s a)) ∧
  (∀ (s : State) (a : Byte), s.fl.getLsbD 0 = false → exec (.jeq a) s = .next { s with pc := s.pc + 2 })

/-- JNE (43_control_transfer.md): taken exactly when FL.E = 0; otherwise pc + 2 whatever the operand byte (the spec's
decision D11). FL does not change. -/
def Obligations.JneBranchesOnNotEqual : Prop :=
  EncodedAs 0x56 (fun a _ => .jne a) 2 true ∧
  (∀ (s : State) (a : Byte), s.fl.getLsbD 0 = false →
    (∀ ha : a.toNat < 8, ∃ dest : PcWord, dest.toNat = (s.reg ⟨a.toNat, ha⟩).toNat ∧
      exec (.jne a) s = .next { s with pc := dest }) ∧
    (7 < a.toNat → RaisesRegister (.jne a) s a)) ∧
  (∀ (s : State) (a : Byte), s.fl.getLsbD 0 = true → exec (.jne a) s = .next { s with pc := s.pc + 2 })

/-! ### Encoding -/

/-- Decode gives back every instruction, with every operand byte at every value, from its encoding, whatever bytes fill
the rest of the fetch window (30_encoding.md sections 1 to 3). -/
def Obligations.DecodeOfEncodeIsIdentity : Prop :=
  ∀ (i : Instr) (b0 b1 b2 : Byte), encode i <+: [b0, b1, b2] → decode b0 b1 b2 = .instr i

/-- The other direction: a window decodes to an instruction only if it begins with that instruction's encoding, whose
length is the one the opcode byte gives (30_encoding.md sections 1 to 3). -/
def Obligations.EncodeOfDecodeIsPrefix : Prop :=
  ∀ (i : Instr) (b0 b1 b2 : Byte), decode b0 b1 b2 = .instr i →
    encode i <+: [b0, b1, b2] ∧ (encode i).length = opLength b0

/-- R72 and R73: the length and the own-PC bit are the source's formulas of the opcode byte alone; valid opcodes have length
1, 2 or 3, the formula's value 4 occurs only at illegal opcodes, and bit 4 is set exactly for the five control
transfers. -/
def Obligations.LengthAndOwnPcFormulas : Prop :=
  (∀ op : Byte, opLength op = ((op >>> 6) &&& 0b11).toNat + 1 ∧ (opOwnPc op = true ↔ op &&& 0b00010000 ≠ 0)) ∧
  (∀ op : Byte, ∀ o, lookupOp op = some o → 1 ≤ opLength op ∧ opLength op ≤ 3 ∧
    (opOwnPc op = true ↔ o ∈ [Op.call, Op.ret, Op.jmp, Op.jeq, Op.jne])) ∧
  (∀ op : Byte, opLength op = 4 → lookupOp op = none)

/-- The three constraints of 30_encoding.md section 3 on the opcode values (which are the spec's decision D1 for fifteen of
them): bits 7:6 are the operand count, bit 4 marks the control transfers, CALL has length 2. -/
def Obligations.OpcodeMapMeetsConstraints : Prop :=
  (∀ i : Instr, ((opcodeOf i.op).extractLsb' 6 2).toNat = i.operands.length) ∧
  (∀ i : Instr, (opcodeOf i.op).getLsbD 4 = true ↔ i.op ∈ [Op.call, Op.ret, Op.jmp, Op.jeq, Op.jne]) ∧
  opLength (opcodeOf .call) = 2 ∧ (∀ o o' : Op, opcodeOf o = opcodeOf o' → o = o')

/-- A few words written out bit by bit from the spec's table decode to the instructions they stand for: the source's own
scenario A, and one word of each other family (D1 values). -/
def Obligations.SampleWordsDecode : Prop :=
  decode 0b10000010 0b00000000 0b00001000 = .instr (.ldi 0 8) ∧
  decode 0b01000111 0b00000000 0b00000001 = .instr (.prn 0) ∧
  decode 0b00000001 0b00000000 0b00000000 = .instr .hlt ∧
  decode 0b10100001 0b00000010 0b00000101 = .instr (.sub 2 5) ∧
  decode 0b01000110 0b00000111 0b11111111 = .instr (.pop 7) ∧
  decode 0b01010110 0b00000011 0b00000000 = .instr (.jne 3) ∧
  decode 0b10000011 0b00000000 0b00000101 = .unknownInstruction 0b10000011

/-- R80: all three bytes of the window are latched whatever the opcode, and a byte the instruction does not use is never
examined: it changes nothing in what is decoded, and execution does not depend on the latches that hold it, so that what an
instruction answers from two states that differ in the latches alone differs in the latches alone, faults included. -/
def Obligations.UnusedOperandBytesIgnored : Prop :=
  (∀ s : State, s.pc.toNat ≤ 253 → fetch s = (s.latched, none)) ∧
  (∀ op a b b' : Byte, opLength op ≤ 2 → decode op a b = decode op a b') ∧
  (∀ op a a' b b' : Byte, opLength op = 1 → decode op a b = decode op a' b') ∧
  (∀ (i : Instr) (s : State) (r a b : Byte), ∃ t, exec i s = .next t ∧
    exec i { s with ir := r, opa := a, opb := b } = .next { t with ir := r, opa := a, opb := b })

/-! ### The step -/

/-- A step runs the decoded instruction (30_encoding.md section 4): the bytes at pc decode to i, so a Running core's step
is exec of i in the state with the window latched, and a Loaded core's step is the same from the started state (the spec's
decision D23). exec holds the pc advance. -/
def Obligations.StepRunsDecodedInstruction : Prop :=
  ∀ (s : State) (i : Instr), s.pc.toNat ≤ 253 → windowInstr s = .instr i →
    (s.running = true → step s = exec i s.latched) ∧ (s.isLoaded = true → step s = exec i s.start.latched)

/-- Fetch (30_encoding.md section 4, the spec's decision D3): it succeeds exactly when pc ≤ 253; from 254 to 256 a step
takes AddressError(MEMORY, 256) whatever the bytes are, and changes no register, flag, memory cell, output or pc. -/
def Obligations.FetchWindowFaultsPastTop : Prop :=
  (∀ s : State, (fetch s).2 = none ↔ s.pc.toNat ≤ 253) ∧
  (∀ s : State, s.running = true ∨ s.isLoaded = true → 254 ≤ s.pc.toNat → s.pc.toNat ≤ 256 →
    ∃ t, step s = .next t ∧ t.running = false ∧ t.hc = .addressError .memory 256 s.pc ∧
      t.x = s.x ∧ t.fl = s.fl ∧ t.mem = s.mem ∧ t.out = s.out ∧ t.pc = s.pc)

/-- R151: an opcode byte outside the decode table raises UnknownInstruction with that byte and the instruction's address,
cause code 2 (the spec's decision D8); only decode raises it; 238 byte values do, 0x00 and 0xFF among them (a count that
rests on D1, as the opcode map does; log entry 8). -/
def Obligations.UnknownOpcodeIsReported : Prop :=
  (∀ s : State, s.running = true ∨ s.isLoaded = true → s.pc.toNat ≤ 253 → lookupOp (s.byteAt s.pc.toNat) = none →
    ∃ t, step s = .next t ∧ t.running = false ∧ t.hc = .unknownInstruction (s.byteAt s.pc.toNat) s.pc ∧
      t.hc.code = 2) ∧
  (∀ (i : Instr) (s t : State) (op : Byte) (p : PcWord),
    exec i s = .next t → t.hc = .unknownInstruction op p → s.hc = .unknownInstruction op p) ∧
  ((List.range 256).filter fun n => lookupOp (BitVec.ofNat 8 n) = none).length = 238 ∧
  lookupOp 0x00 = none ∧ lookupOp 0xFF = none

/-- A core whose halt cause is not NONE is halted for good, in every state the invariant allows (60_exceptions.md section
2; the spec's decision D15): no step, and the host's `step` and `run` change nothing. That `step` answers the fault
`halted` is this model's reading, log entry 5. -/
def Obligations.HaltedIsTerminal : Prop :=
  ∀ s : State, Inv s → s.hc ≠ .none →
    step s = .fault .halted ∧ ∀ n, s.hostSteps n = s ∧ s.hostRun n = s

/-- The effect of `raise` (60_exceptions.md section 2, records by the spec's decision D8): running false, HC the cause with
its information and the pc; every other field as it was. -/
def Obligations.RaiseRecordsAndStops : Prop :=
  (∀ (s : State) (op : Byte),
    s.raise (.unknownInstruction op) = { s with running := false, hc := .unknownInstruction op s.pc }) ∧
  (∀ (s : State) (k : AddrKind) (n : Nat),
    s.raise (.addressError k n) = { s with running := false, hc := .addressError k n s.pc })

/-- Fatal errors are precise (60_exceptions.md section 2, the spec's decision D9): whichever instruction was fetched, a step
that ends in a fatal error has changed nothing but running, HC and the fetch latches, and HC holds the pc it kept. -/
def Obligations.FatalErrorsArePrecise : Prop :=
  ∀ s t : State, s.hc = .none → step s = .next t → IsFatal t.hc = true →
    t = { s with running := false, hc := t.hc, ir := t.ir, opa := t.opa, opb := t.opb } ∧
    ((∃ op, t.hc = .unknownInstruction op s.pc) ∨ (∃ k n, t.hc = .addressError k n s.pc))

/-- The per-instruction fault table (60_exceptions.md section 1, checks in the order a then b by the spec's decision D22,
none on a branch not taken by D11): an instruction raises AddressError(REGISTER) with the table's operand byte, or it
completes, and then only HLT changes HC and running. -/
def Obligations.RegisterFaultTable : Prop :=
  ∀ (i : Instr) (s : State),
    (∀ b, badOperand s.flagE i = some b → 7 < b.toNat ∧ RaisesRegister i s b) ∧
    (badOperand s.flagE i = none → ∃ t, exec i s = .next t ∧
      t.hc = (if i = .hlt then .halt s.pc else s.hc) ∧ t.running = (if i = .hlt then false else s.running))

/-! ### Invariants -/

/-- Every step keeps the invariant: canonical memory, pc in 0..256 (10_state.md section 2), FL's reserved bits 0 (section
3), a running core without a halt cause, and a halt record that agrees with pc. -/
def Obligations.StepKeepsInvariant : Prop := ∀ s t : State, Inv s → step s = .next t → Inv t

/-- The reset state meets the invariant for every LOAD_ADDR (70_reset_and_hazards.md section 1). -/
def Obligations.ResetMeetsInvariant : Prop := ∀ loadAddr : Byte, Inv (State.resetAt loadAddr)

/-- For every LOAD_ADDR and every list of program bytes, every state any number of steps after reset and load meets the
invariant (10_state.md section 2, 70_reset_and_hazards.md section 2). LOAD_ADDR as both the entry point and the load address
is the spec's decision D7 (log entry 8); a program that does not fit is covered too, in the state its load stops in, which is
this model's reading (log entry 7). -/
def Obligations.EveryLoadedRunKeepsInvariant : Prop :=
  ∀ (loadAddr : Byte) (program : List Byte) (n : Nat),
    Inv ((((State.resetAt loadAddr).loadFrom loadAddr.toNat program).1).hostSteps n)

/-! ### Frames and whole-machine rules -/

/-- The table of registers written (10_state.md section 1): an instruction that answers a next state leaves every other
register as it was. -/
def Obligations.RegisterFrame : Prop :=
  ∀ (i : Instr) (s t : State), exec i s = .next t → ∀ r : Fin 8, r.val ∉ writtenRegs i → t.reg r = s.reg r

/-- Where an instruction stores (20_memory.md section 4): every address but the one PUSH or CALL pushes to reads as
before; for every other instruction, every address. -/
def Obligations.MemoryFrame : Prop :=
  ∀ (i : Instr) (s t : State), exec i s = .next t →
    ∀ addr : Nat, storeAddr s i ≠ some addr → t.byteAt addr = s.byteAt addr

/-- R27: no step but that of a CMP which is fetched and completes changes FL, and that one writes 0x00 or 0x01; no fault
changes it; so bits 7:1 stay 0; and no instruction puts FL into a general register: the registers after do not depend on
FL. -/
def Obligations.OnlyCmpWritesFlagRegister : Prop :=
  (∀ s t : State, step s = .next t →
    t.fl = s.fl ∨ ((∃ a b, windowInstr s = .instr (.cmp a b)) ∧ s.pc.toNat ≤ 253 ∧ t.running = true ∧
      t.hc = s.hc ∧ (t.fl = 0x00 ∨ t.fl = 0x01))) ∧
  (∀ (s : State) (e : FatalError), (s.raise e).fl = s.fl) ∧
  (∀ s t : State, step s = .next t → s.fl.extractLsb' 1 7 = 0 → t.fl.extractLsb' 1 7 = 0) ∧
  (∀ (i : Instr) (s t u : State) (f : Byte),
    exec i s = .next t → exec i { s with fl := f } = .next u → t.x = u.x)

/-- R31: Emit(v) appends v at the end of the output stream; the stream is appended to only by a PRN that is fetched, one
entry at its end, and no step removes or reorders entries; and such a PRN does append. -/
def Obligations.OnlyPrnAppendsOutput : Prop :=
  (∀ (s : State) (v : Byte), (s.emit v).out = s.out ++ [v]) ∧
  (∀ s t : State, step s = .next t →
    t.out = s.out ∨
    (∃ (a : Byte) (ha : a.toNat < 8), s.pc.toNat ≤ 253 ∧ windowInstr s = .instr (.prn a) ∧
      t.out = s.out ++ [s.reg ⟨a.toNat, ha⟩])) ∧
  (∀ (s t : State) (a : Byte) (ha : a.toNat < 8), s.pc.toNat ≤ 253 → windowInstr s = .instr (.prn a) →
    step s = .next t → t.out = s.out ++ [s.reg ⟨a.toNat, ha⟩])

/-- The frame of the engine's own state (10_state.md section 4): executing an instruction changes no fetch latch; one that
completes, HLT apart, changes neither running nor HC; one that is not PRN changes no output. -/
def Obligations.EngineStateFrame : Prop :=
  ∀ (i : Instr) (s t : State), exec i s = .next t →
    (t.ir = s.ir ∧ t.opa = s.opa ∧ t.opb = s.opb) ∧
    (i ≠ .hlt → badOperand s.flagE i = none → t.running = s.running ∧ t.hc = s.hc) ∧
    ((∀ a, i ≠ .prn a) → t.out = s.out)

/-- Only HLT and the fatal errors stop the core (30_encoding.md section 4): a step after which running is false executed
HLT and recorded its pc, or took a fatal error; a step after which running is true left HC alone. -/
def Obligations.OnlyHltOrFatalErrorStops : Prop :=
  ∀ s t : State, step s = .next t →
    (t.running = false → (windowInstr s = .instr .hlt ∧ t.hc = .halt s.pc) ∨ IsFatal t.hc = true) ∧
    (t.running = true → t.hc = s.hc)

/-- The pc after an instruction that completes (30_encoding.md section 4, 43_control_transfer.md section on the common
laws): without the own-PC bit it is pc plus the encoded length, not wrapped and at most 256, HLT included; with it, it is
an address 0..255, and the instruction is one of the five control transfers. -/
def Obligations.PcAfterInstruction : Prop :=
  ∀ (i : Instr) (s t : State), s.pc.toNat ≤ 253 → badOperand s.flagE i = none → exec i s = .next t →
    (opOwnPc (opcodeOf i.op) = false → t.pc.toNat = s.pc.toNat + (encode i).length ∧ t.pc.toNat ≤ 256) ∧
    (opOwnPc (opcodeOf i.op) = true → t.pc.toNat ≤ 255 ∧ i.op ∈ [Op.call, Op.ret, Op.jmp, Op.jeq, Op.jne])

/-- R156: an ALU instruction on registers that exist completes whatever the values are, and the only error any instruction
can add is AddressError(REGISTER) with an index above 7: no overflow, divide or alignment exception. -/
def Obligations.ArithmeticNeverFaults : Prop :=
  (∀ (i : Instr) (s : State), isAlu i = true → i.wellFormed = true →
    ∃ t, exec i s = .next t ∧ t.running = s.running ∧ t.hc = s.hc) ∧
  (∀ (i : Instr) (s t : State), exec i s = .next t →
    t.hc = s.hc ∨ t.hc = .halt s.pc ∨ ∃ n, 7 < n ∧ t.hc = .addressError .register n s.pc)

/-! ### Laws over sequences of steps -/

/-- The stack round trip (42_stack.md): a PUSH, then anything that leaves x[7] and the cell at the new top as they were,
then a POP into another register gives the pushed value back and the stack pointer its value from before the PUSH. -/
def Obligations.PushPopRoundTrip : Prop :=
  ∀ (s : State) (r q : Byte) (hr : r.toNat < 7) (hq : q.toNat < 7), Memory.wf s.mem = true →
    ∃ t, exec (.push r) s = .next t ∧
      ∀ u : State, u.sp = t.sp → u.byteAt t.sp.toNat = t.byteAt t.sp.toNat →
        ∃ v, exec (.pop q) u = .next v ∧ v.reg ⟨q.toNat, by omega⟩ = s.reg ⟨r.toNat, by omega⟩ ∧ v.sp = s.sp

/-- The call round trip (43_control_transfer.md, last section): after a CALL, a RET executed with x[7] and the return cell
as CALL left them resumes at the CALL's address plus 2, with the stack pointer of before. -/
def Obligations.CallRetRoundTrip : Prop :=
  ∀ (s : State) (a : Byte), a.toNat < 8 → s.pc.toNat ≤ 253 → Memory.wf s.mem = true →
    ∃ t, exec (.call a) s = .next t ∧
      ∀ u : State, u.sp = t.sp → u.byteAt t.sp.toNat = t.byteAt t.sp.toNat →
        ∃ v, exec .ret u = .next v ∧ v.pc.toNat = s.pc.toNat + 2 ∧ v.sp = s.sp

/-- An instruction never sees its own write to its operand bytes, and a later fetch does (20_memory.md section 6): a PUSH
whose store lands on its own operand byte pushes the register the fetched byte named, and memory then holds the new byte. -/
def Obligations.OwnOperandStoreUsesFetchedByte : Prop :=
  ∀ (s : State) (a : Byte) (ha : a.toNat < 8), s.running = true → Memory.wf s.mem = true → s.pc.toNat ≤ 253 →
    s.byteAt s.pc.toNat = 0x45 → s.byteAt (s.pc.toNat + 1) = a → (s.sp - 1).toNat = s.pc.toNat + 1 →
    ∃ t, step s = .next t ∧ t.byteAt (s.pc.toNat + 1) = s.reg ⟨a.toNat, ha⟩ ∧ t.sp = s.sp - 1 ∧
      t.pc = s.pc + 2 ∧ t.opa = a

/-- R190: a run without a halt cause never stops, and a JMP to its own address is such a run: it never ends, whatever number
of turns is given to it. -/
def Obligations.RunMayBeInfinite : Prop :=
  (∀ s : State, s.running = true → (∀ n, (s.hostSteps n).hc = .none) → ∀ n, (s.hostSteps n).running = true) ∧
  (∀ (s : State) (a : Byte) (ha : a.toNat < 8), s.running = true → s.hc = .none → s.pc.toNat ≤ 253 →
    windowInstr s = .instr (.jmp a) → (s.reg ⟨a.toNat, ha⟩).toNat = s.pc.toNat →
    (∀ n, (s.hostSteps n).pc = s.pc ∧ (s.hostSteps n).running = true) ∧ ¬ ∃ t, EndsIn s t)

/-- R86 (30_encoding.md section 4): the single-step operation performs exactly one Step and answers the post-step state, and
`run` is repeated single-stepping: from any state (Loaded, Running or Halted) n + 1 turns of the run loop and n + 1 calls of
`step()` end in the same state. The Loaded case is the spec's decision D23 and the Halted case its D15 (log entry 8); that
`step` answers the fault `halted` there is log entry 5, and the run cut after a number of turns is log entry 12. -/
def Obligations.SingleSteppingEqualsRunning : Prop :=
  (∀ s t : State, s.running = true → cycle s = .next t → step s = .next t ∧ s.hostStep = t) ∧
  (∀ (s : State) (n : Nat), s.hostRun (n + 1) = s.hostSteps (n + 1))

/-! ### Reset, memory and the host's ports -/

/-- R34 and R36: after reset every memory cell holds 0x00 and x[7] holds 0xF4, for every LOAD_ADDR. -/
def Obligations.ResetMemoryAndStackPointer : Prop :=
  ∀ loadAddr : Byte, (∀ addr, addr < 256 → (State.resetAt loadAddr).byteAt addr = 0x00) ∧
    (State.resetAt loadAddr).reg 7 = 0xF4

/-- The other reset values (10_state.md section 5), the spec's own decisions D5, D6, D7, D8 and D23: x[0..6] zero, pc =
LOAD_ADDR, FL zero, Loaded, HC NONE, out empty; `State.reset` has LOAD_ADDR at its default 0 (log entry 2). -/
def Obligations.ResetDecidedValues : Prop :=
  (∀ loadAddr : Byte, (∀ i : Fin 8, i.val < 7 → (State.resetAt loadAddr).reg i = 0x00) ∧
    (State.resetAt loadAddr).pc.toNat = loadAddr.toNat ∧ (State.resetAt loadAddr).fl = 0x00 ∧
    (State.resetAt loadAddr).running = false ∧ (State.resetAt loadAddr).hc = .none ∧
    (State.resetAt loadAddr).isLoaded = true ∧ (State.resetAt loadAddr).out = []) ∧
  State.reset = State.resetAt 0

/-- R51: MemRead answers the byte of an address 0..255 and raises AddressError(MEMORY, addr) above, never wrapping and never
truncating; the raise records the pc. -/
def Obligations.MemReadNeverWraps : Prop :=
  (∀ (s : State) (addr : Nat), addr ≤ 255 → memRead s addr = .ok (Memory.read s.mem addr)) ∧
  (∀ (s : State) (addr : Nat), 255 < addr → memRead s addr = .error (.addressError .memory addr)) ∧
  (∀ (s : State) (addr : Nat), (s.raise (.addressError .memory addr)).hc = .addressError .memory addr s.pc)

/-- Memory is its 256 bytes and nothing more (20_memory.md section 1): two canonical memories that read alike at every
address are equal data. -/
def Obligations.CanonicalMemoryIsItsBytes : Prop :=
  ∀ m m' : Memory, Memory.wf m = true → Memory.wf m' = true →
    (∀ addr, addr < 256 → Memory.read m addr = Memory.read m' addr) → m = m'

/-- The host's accessors (20_memory.md section 7, the spec's decisions D19 and D21): a read or a write outside 0..255 fails
with AddressError to the caller and gives no new state; a write in range in the Loaded state overwrites that cell alone; outside
Loaded there is no write (this model's reading, log entry 6). -/
def Obligations.HostAccessorsStayInRange : Prop :=
  (∀ (s : State) (addr : Nat), (addr ≤ 255 → s.hostRead addr = .ok (s.byteAt addr)) ∧
    (255 < addr → s.hostRead addr = .error (.addressError addr))) ∧
  (∀ (s : State) (addr : Nat) (v : Byte), s.isLoaded = true → 255 < addr →
    s.loadWrite addr v = .error (.addressError addr)) ∧
  (∀ (s : State) (addr : Nat) (v : Byte), s.isLoaded = true → Memory.wf s.mem = true → addr ≤ 255 →
    ∃ t, s.loadWrite addr v = .ok t ∧ t = { s with mem := t.mem } ∧ t.byteAt addr = v ∧
      ∀ b, b ≠ addr → t.byteAt b = s.byteAt b) ∧
  (∀ (s : State) (addr : Nat) (v : Byte), s.isLoaded = false → s.loadWrite addr v = .error .notLoaded)

/-- The loader (70_reset_and_hazards.md section 2): a program that fits is in memory at ascending addresses from where it is
loaded, every other cell as before and no other state changed; one that does not fit ends in AddressError 256 (log entry 7
for where it stops). -/
def Obligations.LoaderPlacesProgram : Prop :=
  ∀ (s : State) (addr : Nat) (bytes : List Byte), s.isLoaded = true → Memory.wf s.mem = true → addr ≤ 255 →
    (addr + bytes.length ≤ 256 → ∃ t, s.loadFrom addr bytes = (t, none) ∧ t = { s with mem := t.mem } ∧
      (∀ k (hk : k < bytes.length), t.byteAt (addr + k) = bytes[k]) ∧
      (∀ b, b < addr ∨ addr + bytes.length ≤ b → t.byteAt b = s.byteAt b)) ∧
    (256 < addr + bytes.length → ∃ t, s.loadFrom addr bytes = (t, some (.addressError 256)))

/-- R164 and R165: the snapshot holds pc, FL, the eight registers and the bytes at pc, pc + 1 and pc + 2 where those
addresses are at most 255, and nothing of running, HC or out. That a byte above 255 is reported absent is the spec's
decision D14 (log entry 8); that a snapshot is answered in the Loaded state too is this model's choice (log entry 13). -/
def Obligations.SnapshotShowsVisibleState : Prop :=
  (∀ s : State, s.snapshot.pc = s.pc ∧ s.snapshot.flag = s.fl ∧ s.snapshot.registers = s.x ∧
    s.snapshot.next3bytes.length = 3 ∧
    ∀ k (hk : k < s.snapshot.next3bytes.length), s.snapshot.next3bytes[k] =
      if s.pc.toNat + k ≤ 255 then some (s.byteAt (s.pc.toNat + k)) else none) ∧
  (∀ (s : State) (r : Bool) (h : HaltCause) (o : List Byte),
    { s with running := r, hc := h, out := o }.snapshot = s.snapshot)

/-- The rendering of an output entry (40_hlt_ldi_prn.md, the line feed by the spec's decision D13): decimal digits that read
back as the unsigned value, no leading zero but for the single "0", then one line feed; entries in order. -/
def Obligations.OutputRendersAsDecimalLines : Prop :=
  (∀ v : Byte, renderEntry v = decimalDigits v ++ ['\n'] ∧ numberValue 10 (decimalDigits v) = some v.toNat ∧
    ((decimalDigits v).head? = some '0' → v = 0 ∧ decimalDigits v = ['0'])) ∧
  (∀ (s : State) (v : Byte), (s.emit v).renderedOutput = s.renderedOutput ++ renderEntry v)

/-- The assembler syntax (30_encoding.md section 5, the spec's decision D20; log entry 10 for its details): the text of a
well-formed instruction, its mnemonic and its operands in encoding order, assembles to that instruction, so the text and
the encoding name the same instruction; a register may be written with either letter. -/
def Obligations.AssemblerReadsItsOwnText : Prop :=
  (∀ i : Instr, i.wellFormed = true → assemble (assemblerText i) = some i) ∧
  (∀ c : Char, parseRegister ['R', c] = parseRegister ['r', c])
end

