-- ==== Sys2Proof/Laws/Decode.lean ====
section
/-!
SUPPORT. Small facts of the decode table: what it names at a byte, and the length and own-PC bit of each opcode.
-/

namespace Sys2Proof

/-- The table names an instruction at its own opcode (30_encoding.md R76, R77). -/
theorem lookupOp_opcodeOf (o : Op) : lookupOp (opcodeOf o) = some o := by cases o <;> decide

/-- What the table names at a byte has that byte as its opcode. -/
theorem opcodeOf_of_lookup {byte : Byte} {o : Op} (h : lookupOp byte = some o) : opcodeOf o = byte := by
  simpa using List.find?_some h

theorem decode_of_lookup {ir : Byte} (opa opb : Byte) {o : Op} (h : lookupOp ir = some o) :
    decode ir opa opb = .instr (instrOf opa opb o) := by simp [decode, h]

theorem decode_of_lookup_none {ir : Byte} (opa opb : Byte) (h : lookupOp ir = none) :
    decode ir opa opb = .unknownInstruction ir := by simp [decode, h]

/-- A window that decodes has a valid opcode, and the instruction is that opcode's with the window's operand bytes. -/
theorem decode_instr {ir opa opb : Byte} {i : Instr} (h : decode ir opa opb = .instr i) :
    ∃ o, lookupOp ir = some o ∧ i = instrOf opa opb o := by
  cases hl : lookupOp ir with
  | none => simp [decode, hl] at h
  | some o => exact ⟨o, rfl, by simpa [decode, hl] using h.symm⟩

@[simp] theorem op_instrOf (a b : Byte) (o : Op) : (instrOf a b o).op = o := by cases o <;> rfl

/-! The own-PC bit and the length of each opcode (30_encoding.md R77, columns C and Length). -/

@[simp] theorem opOwnPc_hlt : opOwnPc (opcodeOf .hlt) = false := by decide
@[simp] theorem opOwnPc_ldi : opOwnPc (opcodeOf .ldi) = false := by decide
@[simp] theorem opOwnPc_prn : opOwnPc (opcodeOf .prn) = false := by decide
@[simp] theorem opOwnPc_add : opOwnPc (opcodeOf .add) = false := by decide
@[simp] theorem opOwnPc_sub : opOwnPc (opcodeOf .sub) = false := by decide
@[simp] theorem opOwnPc_mul : opOwnPc (opcodeOf .mul) = false := by decide
@[simp] theorem opOwnPc_cmp : opOwnPc (opcodeOf .cmp) = false := by decide
@[simp] theorem opOwnPc_and : opOwnPc (opcodeOf .and) = false := by decide
@[simp] theorem opOwnPc_or : opOwnPc (opcodeOf .or) = false := by decide
@[simp] theorem opOwnPc_xor : opOwnPc (opcodeOf .xor) = false := by decide
@[simp] theorem opOwnPc_not : opOwnPc (opcodeOf .not) = false := by decide
@[simp] theorem opOwnPc_push : opOwnPc (opcodeOf .push) = false := by decide
@[simp] theorem opOwnPc_pop : opOwnPc (opcodeOf .pop) = false := by decide
@[simp] theorem opOwnPc_call : opOwnPc (opcodeOf .call) = true := by decide
@[simp] theorem opOwnPc_ret : opOwnPc (opcodeOf .ret) = true := by decide
@[simp] theorem opOwnPc_jmp : opOwnPc (opcodeOf .jmp) = true := by decide
@[simp] theorem opOwnPc_jeq : opOwnPc (opcodeOf .jeq) = true := by decide
@[simp] theorem opOwnPc_jne : opOwnPc (opcodeOf .jne) = true := by decide

@[simp] theorem opLength_hlt : opLength (opcodeOf .hlt) = 1 := by decide
@[simp] theorem opLength_ldi : opLength (opcodeOf .ldi) = 3 := by decide
@[simp] theorem opLength_prn : opLength (opcodeOf .prn) = 2 := by decide
@[simp] theorem opLength_add : opLength (opcodeOf .add) = 3 := by decide
@[simp] theorem opLength_sub : opLength (opcodeOf .sub) = 3 := by decide
@[simp] theorem opLength_mul : opLength (opcodeOf .mul) = 3 := by decide
@[simp] theorem opLength_cmp : opLength (opcodeOf .cmp) = 3 := by decide
@[simp] theorem opLength_and : opLength (opcodeOf .and) = 3 := by decide
@[simp] theorem opLength_or : opLength (opcodeOf .or) = 3 := by decide
@[simp] theorem opLength_xor : opLength (opcodeOf .xor) = 3 := by decide
@[simp] theorem opLength_not : opLength (opcodeOf .not) = 2 := by decide
@[simp] theorem opLength_push : opLength (opcodeOf .push) = 2 := by decide
@[simp] theorem opLength_pop : opLength (opcodeOf .pop) = 2 := by decide
@[simp] theorem opLength_call : opLength (opcodeOf .call) = 2 := by decide
@[simp] theorem opLength_ret : opLength (opcodeOf .ret) = 1 := by decide
@[simp] theorem opLength_jmp : opLength (opcodeOf .jmp) = 2 := by decide
@[simp] theorem opLength_jeq : opLength (opcodeOf .jeq) = 2 := by decide
@[simp] theorem opLength_jne : opLength (opcodeOf .jne) = 2 := by decide

end Sys2Proof
end

