-- ==== Sys2Proof/Laws/Memory.lean ====
section
/-!
SUPPORT. The laws of memory: what a read sees after a write, and that every memory operation keeps the canonical form.
-/

namespace Sys2Proof.Machine.Memory

@[simp] theorem read_nil (a : Nat) : read [] a = 0#8 := rfl

@[simp] theorem wf_nil : wf [] = true := rfl

theorem wfFrom_cons {lo a : Nat} {v : Byte} {m : Memory} :
    wfFrom lo ((a, v) :: m) = true ↔ (lo ≤ a ∧ a < Config.memSize) ∧ v ≠ 0#8 ∧ wfFrom (a + 1) m = true := by
  simp [wfFrom, and_assoc]

theorem wfFrom_mono {lo lo' : Nat} (h : lo' ≤ lo) {m : Memory} (hm : wfFrom lo m = true) : wfFrom lo' m = true := by
  cases m with
  | nil => rfl
  | cons c m =>
    obtain ⟨a, v⟩ := c
    rw [wfFrom_cons] at hm ⊢
    exact ⟨⟨h.trans hm.1.1, hm.1.2⟩, hm.2⟩

/-- Below the first listed address memory reads as 0x00. -/
theorem read_eq_zero_of_lt {lo a : Nat} {m : Memory} (hm : wfFrom lo m = true) (h : a < lo) : read m a = 0#8 := by
  induction m generalizing lo with
  | nil => rfl
  | cons c m ih =>
    obtain ⟨b, w⟩ := c
    rw [wfFrom_cons] at hm
    rw [read, if_neg (by omega)]
    exact ih hm.2.2 (by omega)

theorem read_write_self {lo : Nat} {m : Memory} (hm : wfFrom lo m = true) (a : Nat) (v : Byte) :
    read (write m a v) a = v := by
  induction m generalizing lo with
  | nil => by_cases hv : v = 0#8 <;> simp [write, read, hv]
  | cons c m ih =>
    obtain ⟨b, w⟩ := c
    have hm' := hm
    rw [wfFrom_cons] at hm
    unfold write
    split
    · rename_i hab
      split
      · rename_i hv
        rw [hv]
        exact read_eq_zero_of_lt (lo := b) (wfFrom_cons.2 ⟨⟨le_rfl, hm.1.2⟩, hm.2⟩) hab
      · simp [read]
    · split
      · rename_i hab
        split
        · rename_i hv
          rw [hv]
          exact read_eq_zero_of_lt hm.2.2 (by omega)
        · simp [read]
      · rename_i hne
        rw [read, if_neg (Ne.symm hne)]
        exact ih hm.2.2

theorem read_write_of_ne {m : Memory} {a b : Nat} (h : b ≠ a) (v : Byte) : read (write m a v) b = read m b := by
  induction m with
  | nil => by_cases hv : v = 0#8 <;> simp [write, read, hv, Ne.symm h]
  | cons c m ih =>
    obtain ⟨d, w⟩ := c
    unfold write
    split
    · split
      · rfl
      · rw [read, if_neg (Ne.symm h)]
    · split
      · rename_i had
        split
        · rw [read, if_neg (by omega)]
        · rw [read, if_neg (Ne.symm h), read, if_neg (by omega)]
      · simp only [read, ih]

/-- Reading any address after a write to a canonical memory. -/
theorem read_write {m : Memory} (hm : wf m = true) (a b : Nat) (v : Byte) :
    read (write m a v) b = if b = a then v else read m b := by
  split
  · subst b
    exact read_write_self hm a v
  · exact read_write_of_ne ‹_› v

theorem wfFrom_write {lo a : Nat} {m : Memory} (hm : wfFrom lo m = true) (h : lo ≤ a) (ha : a < Config.memSize)
    (v : Byte) : wfFrom lo (write m a v) = true := by
  induction m generalizing lo with
  | nil =>
    unfold write
    split
    · rfl
    · exact wfFrom_cons.2 ⟨⟨h, ha⟩, ‹_›, rfl⟩
  | cons c m ih =>
    obtain ⟨b, w⟩ := c
    have hm' := wfFrom_cons.1 hm
    unfold write
    split
    · split
      · exact hm
      · exact wfFrom_cons.2 ⟨⟨h, ha⟩, ‹_›, wfFrom_cons.2 ⟨⟨by omega, hm'.1.2⟩, hm'.2⟩⟩
    · split
      · rename_i hab
        subst hab
        split
        · exact wfFrom_mono (by omega) hm'.2.2
        · exact wfFrom_cons.2 ⟨hm'.1, ‹_›, hm'.2.2⟩
      · exact wfFrom_cons.2 ⟨hm'.1, hm'.2.1, ih hm'.2.2 (by omega)⟩

/-- A write inside memory keeps the canonical form. -/
theorem wf_write {m : Memory} (hm : wf m = true) {a : Nat} (ha : a < Config.memSize) (v : Byte) :
    wf (write m a v) = true := wfFrom_write hm (Nat.zero_le a) ha v

end Sys2Proof.Machine.Memory
end

