-- ==== Sys2Proof/Laws/State.lean ====
section
/-!
SUPPORT. One lemma per field per named update of the state, true by definition, so that no later proof unfolds a record
update.
-/

namespace Sys2Proof.Machine.State

variable (s : State)

/-! ### `setReg` -/

@[simp] theorem setReg_x (i : Fin 8) (v : Byte) : (s.setReg i v).x = s.x.set i v := rfl
@[simp] theorem setReg_pc (i : Fin 8) (v : Byte) : (s.setReg i v).pc = s.pc := rfl
@[simp] theorem setReg_fl (i : Fin 8) (v : Byte) : (s.setReg i v).fl = s.fl := rfl
@[simp] theorem setReg_mem (i : Fin 8) (v : Byte) : (s.setReg i v).mem = s.mem := rfl
@[simp] theorem setReg_running (i : Fin 8) (v : Byte) : (s.setReg i v).running = s.running := rfl
@[simp] theorem setReg_hc (i : Fin 8) (v : Byte) : (s.setReg i v).hc = s.hc := rfl
@[simp] theorem setReg_out (i : Fin 8) (v : Byte) : (s.setReg i v).out = s.out := rfl
@[simp] theorem setReg_ir (i : Fin 8) (v : Byte) : (s.setReg i v).ir = s.ir := rfl
@[simp] theorem setReg_opa (i : Fin 8) (v : Byte) : (s.setReg i v).opa = s.opa := rfl
@[simp] theorem setReg_opb (i : Fin 8) (v : Byte) : (s.setReg i v).opb = s.opb := rfl

/-! ### `setPc` -/

@[simp] theorem setPc_x (target : PcWord) : (s.setPc target).x = s.x := rfl
@[simp] theorem setPc_pc (target : PcWord) : (s.setPc target).pc = target := rfl
@[simp] theorem setPc_fl (target : PcWord) : (s.setPc target).fl = s.fl := rfl
@[simp] theorem setPc_mem (target : PcWord) : (s.setPc target).mem = s.mem := rfl
@[simp] theorem setPc_running (target : PcWord) : (s.setPc target).running = s.running := rfl
@[simp] theorem setPc_hc (target : PcWord) : (s.setPc target).hc = s.hc := rfl
@[simp] theorem setPc_out (target : PcWord) : (s.setPc target).out = s.out := rfl
@[simp] theorem setPc_ir (target : PcWord) : (s.setPc target).ir = s.ir := rfl
@[simp] theorem setPc_opa (target : PcWord) : (s.setPc target).opa = s.opa := rfl
@[simp] theorem setPc_opb (target : PcWord) : (s.setPc target).opb = s.opb := rfl

/-! ### `setFl` -/

@[simp] theorem setFl_x (v : Byte) : (s.setFl v).x = s.x := rfl
@[simp] theorem setFl_pc (v : Byte) : (s.setFl v).pc = s.pc := rfl
@[simp] theorem setFl_fl (v : Byte) : (s.setFl v).fl = v := rfl
@[simp] theorem setFl_mem (v : Byte) : (s.setFl v).mem = s.mem := rfl
@[simp] theorem setFl_running (v : Byte) : (s.setFl v).running = s.running := rfl
@[simp] theorem setFl_hc (v : Byte) : (s.setFl v).hc = s.hc := rfl
@[simp] theorem setFl_out (v : Byte) : (s.setFl v).out = s.out := rfl
@[simp] theorem setFl_ir (v : Byte) : (s.setFl v).ir = s.ir := rfl
@[simp] theorem setFl_opa (v : Byte) : (s.setFl v).opa = s.opa := rfl
@[simp] theorem setFl_opb (v : Byte) : (s.setFl v).opb = s.opb := rfl

/-! ### `setByte` -/

@[simp] theorem setByte_x (addr : Nat) (v : Byte) : (s.setByte addr v).x = s.x := rfl
@[simp] theorem setByte_pc (addr : Nat) (v : Byte) : (s.setByte addr v).pc = s.pc := rfl
@[simp] theorem setByte_fl (addr : Nat) (v : Byte) : (s.setByte addr v).fl = s.fl := rfl
@[simp] theorem setByte_mem (addr : Nat) (v : Byte) : (s.setByte addr v).mem = Memory.write s.mem addr v := rfl
@[simp] theorem setByte_running (addr : Nat) (v : Byte) : (s.setByte addr v).running = s.running := rfl
@[simp] theorem setByte_hc (addr : Nat) (v : Byte) : (s.setByte addr v).hc = s.hc := rfl
@[simp] theorem setByte_out (addr : Nat) (v : Byte) : (s.setByte addr v).out = s.out := rfl
@[simp] theorem setByte_ir (addr : Nat) (v : Byte) : (s.setByte addr v).ir = s.ir := rfl
@[simp] theorem setByte_opa (addr : Nat) (v : Byte) : (s.setByte addr v).opa = s.opa := rfl
@[simp] theorem setByte_opb (addr : Nat) (v : Byte) : (s.setByte addr v).opb = s.opb := rfl

/-! ### `emit` -/

@[simp] theorem emit_x (v : Byte) : (s.emit v).x = s.x := rfl
@[simp] theorem emit_pc (v : Byte) : (s.emit v).pc = s.pc := rfl
@[simp] theorem emit_fl (v : Byte) : (s.emit v).fl = s.fl := rfl
@[simp] theorem emit_mem (v : Byte) : (s.emit v).mem = s.mem := rfl
@[simp] theorem emit_running (v : Byte) : (s.emit v).running = s.running := rfl
@[simp] theorem emit_hc (v : Byte) : (s.emit v).hc = s.hc := rfl
@[simp] theorem emit_out (v : Byte) : (s.emit v).out = s.out ++ [v] := rfl
@[simp] theorem emit_ir (v : Byte) : (s.emit v).ir = s.ir := rfl
@[simp] theorem emit_opa (v : Byte) : (s.emit v).opa = s.opa := rfl
@[simp] theorem emit_opb (v : Byte) : (s.emit v).opb = s.opb := rfl

/-! ### `start` -/

@[simp] theorem start_x : (s.start).x = s.x := rfl
@[simp] theorem start_pc : (s.start).pc = s.pc := rfl
@[simp] theorem start_fl : (s.start).fl = s.fl := rfl
@[simp] theorem start_mem : (s.start).mem = s.mem := rfl
@[simp] theorem start_running : (s.start).running = true := rfl
@[simp] theorem start_hc : (s.start).hc = s.hc := rfl
@[simp] theorem start_out : (s.start).out = s.out := rfl
@[simp] theorem start_ir : (s.start).ir = s.ir := rfl
@[simp] theorem start_opa : (s.start).opa = s.opa := rfl
@[simp] theorem start_opb : (s.start).opb = s.opb := rfl

/-! ### `halt` -/

@[simp] theorem halt_x : (s.halt).x = s.x := rfl
@[simp] theorem halt_pc : (s.halt).pc = s.pc := rfl
@[simp] theorem halt_fl : (s.halt).fl = s.fl := rfl
@[simp] theorem halt_mem : (s.halt).mem = s.mem := rfl
@[simp] theorem halt_running : (s.halt).running = false := rfl
@[simp] theorem halt_hc : (s.halt).hc = .halt s.pc := rfl
@[simp] theorem halt_out : (s.halt).out = s.out := rfl
@[simp] theorem halt_ir : (s.halt).ir = s.ir := rfl
@[simp] theorem halt_opa : (s.halt).opa = s.opa := rfl
@[simp] theorem halt_opb : (s.halt).opb = s.opb := rfl

/-! ### `raise` -/

@[simp] theorem raise_x (e : FatalError) : (s.raise e).x = s.x := rfl
@[simp] theorem raise_pc (e : FatalError) : (s.raise e).pc = s.pc := rfl
@[simp] theorem raise_fl (e : FatalError) : (s.raise e).fl = s.fl := rfl
@[simp] theorem raise_mem (e : FatalError) : (s.raise e).mem = s.mem := rfl
@[simp] theorem raise_running (e : FatalError) : (s.raise e).running = false := rfl
@[simp] theorem raise_hc (e : FatalError) : (s.raise e).hc = e.record s.pc := rfl
@[simp] theorem raise_out (e : FatalError) : (s.raise e).out = s.out := rfl
@[simp] theorem raise_ir (e : FatalError) : (s.raise e).ir = s.ir := rfl
@[simp] theorem raise_opa (e : FatalError) : (s.raise e).opa = s.opa := rfl
@[simp] theorem raise_opb (e : FatalError) : (s.raise e).opb = s.opb := rfl

/-! ### `latched` -/

@[simp] theorem latched_x : s.latched.x = s.x := rfl
@[simp] theorem latched_pc : s.latched.pc = s.pc := rfl
@[simp] theorem latched_fl : s.latched.fl = s.fl := rfl
@[simp] theorem latched_mem : s.latched.mem = s.mem := rfl
@[simp] theorem latched_running : s.latched.running = s.running := rfl
@[simp] theorem latched_hc : s.latched.hc = s.hc := rfl
@[simp] theorem latched_out : s.latched.out = s.out := rfl
@[simp] theorem latched_ir : s.latched.ir = s.byteAt s.pc.toNat := rfl
@[simp] theorem latched_opa : s.latched.opa = s.byteAt (s.pc.toNat + 1) := rfl
@[simp] theorem latched_opb : s.latched.opb = s.byteAt (s.pc.toNat + 2) := rfl

end Sys2Proof.Machine.State
end

