-- ==== Sys2Proof/Laws/Ops.lean ====
section
/-!
SUPPORT. What each shared operation can do, said once: registers, memory access, the stack, operands, flags, fetch and
the end of the cycle. Later proofs cite these and unfold none of the operations.
-/

namespace Sys2Proof.Machine

namespace State

/-! ### Registers and memory cells -/

theorem reg_eq (s : State) (i : Fin 8) : s.reg i = s.x[i.val] := rfl

@[simp] theorem reg_setReg (s : State) (i j : Fin 8) (v : Byte) :
    (s.setReg i v).reg j = if i = j then v else s.reg j := by
  simp [reg, setReg, Vector.getElem_set, Fin.ext_iff]

@[simp] theorem reg_setPc (s : State) (p : PcWord) (i : Fin 8) : (s.setPc p).reg i = s.reg i := rfl
@[simp] theorem reg_setFl (s : State) (v : Byte) (i : Fin 8) : (s.setFl v).reg i = s.reg i := rfl
@[simp] theorem reg_setByte (s : State) (a : Nat) (v : Byte) (i : Fin 8) : (s.setByte a v).reg i = s.reg i := rfl
@[simp] theorem reg_emit (s : State) (v : Byte) (i : Fin 8) : (s.emit v).reg i = s.reg i := rfl
@[simp] theorem reg_start (s : State) (i : Fin 8) : s.start.reg i = s.reg i := rfl
@[simp] theorem reg_halt (s : State) (i : Fin 8) : s.halt.reg i = s.reg i := rfl
@[simp] theorem reg_raise (s : State) (e : FatalError) (i : Fin 8) : (s.raise e).reg i = s.reg i := rfl
@[simp] theorem reg_latched (s : State) (i : Fin 8) : s.latched.reg i = s.reg i := rfl

@[simp] theorem byteAt_latched (s : State) (a : Nat) : s.latched.byteAt a = s.byteAt a := rfl
@[simp] theorem byteAt_setReg (s : State) (i : Fin 8) (v : Byte) (a : Nat) : (s.setReg i v).byteAt a = s.byteAt a := rfl
@[simp] theorem byteAt_setPc (s : State) (p : PcWord) (a : Nat) : (s.setPc p).byteAt a = s.byteAt a := rfl
@[simp] theorem byteAt_setFl (s : State) (v : Byte) (a : Nat) : (s.setFl v).byteAt a = s.byteAt a := rfl
@[simp] theorem byteAt_emit (s : State) (v : Byte) (a : Nat) : (s.emit v).byteAt a = s.byteAt a := rfl
@[simp] theorem byteAt_start (s : State) (a : Nat) : s.start.byteAt a = s.byteAt a := rfl
@[simp] theorem byteAt_halt (s : State) (a : Nat) : s.halt.byteAt a = s.byteAt a := rfl
@[simp] theorem byteAt_raise (s : State) (e : FatalError) (a : Nat) : (s.raise e).byteAt a = s.byteAt a := rfl

theorem byteAt_setByte_of_ne (s : State) {a b : Nat} (h : b ≠ a) (v : Byte) : (s.setByte a v).byteAt b = s.byteAt b :=
  Memory.read_write_of_ne h v

theorem byteAt_setByte (s : State) (hm : Memory.wf s.mem = true) (a b : Nat) (v : Byte) :
    (s.setByte a v).byteAt b = if b = a then v else s.byteAt b := Memory.read_write hm a b v

theorem wf_setByte {s : State} (hm : Memory.wf s.mem = true) {a : Nat} (ha : a < 256) (v : Byte) :
    Memory.wf (s.setByte a v).mem = true := Memory.wf_write hm ha v

/-- Placing bytes keeps the canonical form. -/
theorem wf_placeBytes {s : State} (hm : Memory.wf s.mem = true) (a : Nat) (bs : List Byte) :
    Memory.wf (s.placeBytes a bs).mem = true := by
  induction bs generalizing s a with
  | nil => exact hm
  | cons b bs ih =>
    rw [placeBytes]
    split
    · exact ih (wf_setByte hm ‹_› b) (a + 1)
    · exact ih hm (a + 1)

end State

/-! ### Operands -/

theorem checkReg_ok {b : Byte} (h : b.toNat < 8) : checkReg b = .ok ⟨b.toNat, h⟩ := by simp [checkReg, h]

theorem checkReg_bad {b : Byte} (h : 8 ≤ b.toNat) : checkReg b = .error (.addressError .register b.toNat) := by
  simp [checkReg, Nat.not_lt.2 h]

theorem withReg_ok {a : Byte} (h : a.toNat < 8) (k : Fin 8 → Except FatalError State) :
    withReg a k = k ⟨a.toNat, h⟩ := by simp [withReg, checkReg_ok h, bind, Except.bind]

theorem withReg_bad {a : Byte} (h : 8 ≤ a.toNat) (k : Fin 8 → Except FatalError State) :
    withReg a k = .error (.addressError .register a.toNat) := by simp [withReg, checkReg_bad h, bind, Except.bind]

theorem withRegs_ok {a b : Byte} (ha : a.toNat < 8) (hb : b.toNat < 8) (k : Fin 8 → Fin 8 → Except FatalError State) :
    withRegs a b k = k ⟨a.toNat, ha⟩ ⟨b.toNat, hb⟩ := by
  simp [withRegs, checkReg_ok ha, checkReg_ok hb, bind, Except.bind]

theorem withRegs_bad_a {a : Byte} (ha : 8 ≤ a.toNat) (b : Byte) (k : Fin 8 → Fin 8 → Except FatalError State) :
    withRegs a b k = .error (.addressError .register a.toNat) := by
  simp [withRegs, checkReg_bad ha, bind, Except.bind]

theorem withRegs_bad_b {a b : Byte} (ha : a.toNat < 8) (hb : 8 ≤ b.toNat) (k : Fin 8 → Fin 8 → Except FatalError State) :
    withRegs a b k = .error (.addressError .register b.toNat) := by
  simp [withRegs, checkReg_ok ha, checkReg_bad hb, bind, Except.bind]

@[simp] theorem target_toNat (v : Byte) : (target v).toNat = v.toNat := by
  have := v.isLt
  simp only [target, BitVec.toNat_setWidth]
  omega

/-- A CALL that can be fetched pushes its own address plus 2, untruncated (43_control_transfer.md R130). -/
theorem returnAddr_toNat {s : State} (h : s.pc.toNat ≤ 253) : (returnAddr s).toNat = s.pc.toNat + 2 := by
  simp only [returnAddr, BitVec.ofNat_eq_ofNat, BitVec.toNat_setWidth, BitVec.toNat_add, BitVec.toNat_ofNat]
  omega

theorem fallThrough_toNat {s : State} (h : s.pc.toNat ≤ 253) : (fallThrough s).toNat = s.pc.toNat + 2 := by
  simp only [fallThrough, BitVec.ofNat_eq_ofNat, BitVec.toNat_add, BitVec.toNat_ofNat]
  omega

/-! ### Memory access and the stack -/

theorem memRead_ok {s : State} {a : Nat} (h : a < 256) : memRead s a = .ok (s.byteAt a) := by
  simp [memRead, Config.memSize, h]

theorem memRead_bad {s : State} {a : Nat} (h : 256 ≤ a) : memRead s a = .error (.addressError .memory a) := by
  simp [memRead, Config.memSize, Nat.not_lt.2 h]

theorem memWrite_ok {s : State} {a : Nat} (h : a < 256) (v : Byte) : memWrite s a v = .ok (s.setByte a v) := by
  simp [memWrite, Config.memSize, h]

theorem memWrite_bad {s : State} {a : Nat} (h : 256 ≤ a) (v : Byte) :
    memWrite s a v = .error (.addressError .memory a) := by
  simp [memWrite, Config.memSize, Nat.not_lt.2 h]

/-- Push never raises, because the stack pointer is a byte (20_memory.md R55). -/
theorem push_eq (v : Byte) (s : State) :
    push v s = .ok ((s.setReg Config.spIndex (pushAddr s)).setByte (pushAddr s).toNat v) := by
  have h : (s.setReg Config.spIndex (pushAddr s)).sp = pushAddr s := by simp [State.sp]
  simp [push, h, memWrite_ok (pushAddr s).isLt]

/-- Pop never raises (20_memory.md R56). -/
theorem pop_eq (s : State) :
    pop s = .ok (s.byteAt s.sp.toNat, s.setReg Config.spIndex (s.sp + 1)) := by
  simp [pop, memRead_ok s.sp.isLt, bind, Except.bind]

/-! ### Flags -/

theorem equalFlag_self (v : Byte) : equalFlag v v = 1 := by simp [equalFlag]

theorem equalFlag_of_ne {v w : Byte} (h : v ≠ w) : equalFlag v w = 0 := by simp [equalFlag, h]

/-! ### The cycle -/

/-- A fetch succeeds exactly for pc ≤ 253 (30_encoding.md R82), and then latches the three bytes of the window. -/
theorem fetch_ok {s : State} (h : s.pc.toNat ≤ 253) :
    fetch s = (s.latched, none) := by
  simp only [fetch, State.latched, memRead_ok (show s.pc.toNat < 256 by omega), memRead_ok (show s.pc.toNat + 1 < 256 by omega),
    memRead_ok (show s.pc.toNat + 2 < 256 by omega)]

/-- A fetch from 254 on raises, reports the first address above 255, and changes nothing but latches. -/
theorem fetch_error {s : State} (h : 254 ≤ s.pc.toNat) :
    ∃ b0 b1, fetch s = ({ s with ir := b0, opa := b1 }, some (.addressError .memory (max 256 s.pc.toNat))) := by
  by_cases h0 : 256 ≤ s.pc.toNat
  · exact ⟨s.ir, s.opa, by simp only [fetch, memRead_bad h0, Nat.max_eq_right h0]⟩
  · by_cases h1 : 256 ≤ s.pc.toNat + 1
    · refine ⟨s.byteAt s.pc.toNat, s.opa, ?_⟩
      simp only [fetch, memRead_ok (show s.pc.toNat < 256 by omega), memRead_bad h1,
        show max 256 s.pc.toNat = s.pc.toNat + 1 by omega]
    · refine ⟨s.byteAt s.pc.toNat, s.byteAt (s.pc.toNat + 1), ?_⟩
      simp only [fetch, memRead_ok (show s.pc.toNat < 256 by omega), memRead_ok (show s.pc.toNat + 1 < 256 by omega),
        memRead_bad (show 256 ≤ s.pc.toNat + 2 by omega), show max 256 s.pc.toNat = s.pc.toNat + 2 by omega]

/-- The advance writes pc alone. -/
theorem advance_eq (opcode : Byte) (s : State) :
    advance opcode s = s.setPc (if opOwnPc opcode then s.pc else s.pc + BitVec.ofNat 9 (opLength opcode)) := by
  unfold advance
  split <;> rfl

theorem finish_ok (o : Op) (s t : State) : finish o s (.ok t) = .next (advance (opcodeOf o) t) := rfl

theorem finish_error (o : Op) (s : State) (e : FatalError) : finish o s (.error e) = .next (s.raise e) := rfl

/-- Every instruction's cycle ends in a next state: the fatal error taken in the state it began in, or its rule's state
with the pc advanced. -/
theorem finish_cases {o : Op} {s t : State} {r : Except FatalError State} (h : finish o s r = .next t) :
    (∃ e, r = .error e ∧ t = s.raise e) ∨ (∃ u, r = .ok u ∧ t = advance (opcodeOf o) u) := by
  cases r with
  | error e => exact .inl ⟨e, rfl, by simpa [finish] using h.symm⟩
  | ok u => exact .inr ⟨u, rfl, by simpa [finish] using h.symm⟩

end Sys2Proof.Machine
end

