-- ==== Sys2Proof/Laws/Exec.lean ====
section
/-!
SUPPORT. The shared instruction shapes and the step function, inverted once: what each can answer.
-/

namespace Sys2Proof.Machine

/-- The shape of a rule with one register operand. -/
theorem finish_withReg_cases {o : Op} {s t : State} {a : Byte} {k : Fin 8 → Except FatalError State}
    (h : finish o s (withReg a k) = .next t) :
    (8 ≤ a.toNat ∧ t = s.raise (.addressError .register a.toNat)) ∨
    (∃ ha : a.toNat < 8, finish o s (k ⟨a.toNat, ha⟩) = .next t) := by
  by_cases ha : a.toNat < 8
  · exact .inr ⟨ha, by rwa [withReg_ok ha] at h⟩
  · have ha' : 8 ≤ a.toNat := Nat.not_lt.1 ha
    rw [withReg_bad ha', finish_error] at h
    exact .inl ⟨ha', by simpa using h.symm⟩

/-- The shape of a rule with two register operands: operand a is checked before operand b (60_exceptions.md R157). -/
theorem finish_withRegs_cases {o : Op} {s t : State} {a b : Byte} {k : Fin 8 → Fin 8 → Except FatalError State}
    (h : finish o s (withRegs a b k) = .next t) :
    (8 ≤ a.toNat ∧ t = s.raise (.addressError .register a.toNat)) ∨
    (a.toNat < 8 ∧ 8 ≤ b.toNat ∧ t = s.raise (.addressError .register b.toNat)) ∨
    (∃ (ha : a.toNat < 8) (hb : b.toNat < 8), finish o s (k ⟨a.toNat, ha⟩ ⟨b.toNat, hb⟩) = .next t) := by
  by_cases ha : a.toNat < 8
  · by_cases hb : b.toNat < 8
    · exact .inr (.inr ⟨ha, hb, by rwa [withRegs_ok ha hb] at h⟩)
    · have hb' : 8 ≤ b.toNat := Nat.not_lt.1 hb
      rw [withRegs_bad_b ha hb', finish_error] at h
      exact .inr (.inl ⟨ha, hb', by simpa using h.symm⟩)
  · have ha' : 8 ≤ a.toNat := Nat.not_lt.1 ha
    rw [withRegs_bad_a ha', finish_error] at h
    exact .inl ⟨ha', by simpa using h.symm⟩

/-- A taken branch is the rule of a jump. -/
theorem branchRule_taken (a : Byte) (s : State) :
    branchRule true a s = withReg a fun i => .ok (s.setPc (target (s.reg i))) := rfl

/-- A branch not taken reads no register and raises nothing, whatever its operand byte. -/
theorem branchRule_not_taken (a : Byte) (s : State) : branchRule false a s = .ok (s.setPc (fallThrough s)) := rfl

/-! ### The step -/

/-- What a cycle can do: a fetch error, an unknown opcode, or the execution of the decoded instruction in the state with
the window latched. -/
theorem cycle_cases (s : State) :
    (254 ≤ s.pc.toNat ∧ ∃ b0 b1, cycle s =
      .next ({ s with ir := b0, opa := b1 }.raise (.addressError .memory (max 256 s.pc.toNat)))) ∨
    (s.pc.toNat ≤ 253 ∧
      ((lookupOp s.latched.ir = none ∧ cycle s = .next (s.latched.raise (.unknownInstruction s.latched.ir))) ∨
       (∃ i, decode s.latched.ir s.latched.opa s.latched.opb = .instr i ∧ cycle s = exec i s.latched))) := by
  by_cases h : s.pc.toNat ≤ 253
  · refine .inr ⟨h, ?_⟩
    unfold cycle
    rw [fetch_ok h]
    simp only
    cases hl : lookupOp s.latched.ir with
    | none => exact .inl ⟨rfl, by rw [decode_of_lookup_none _ _ hl]⟩
    | some o => exact .inr ⟨_, decode_of_lookup _ _ hl, by rw [decode_of_lookup _ _ hl]⟩
  · have h' : 254 ≤ s.pc.toNat := by omega
    obtain ⟨b0, b1, hf⟩ := fetch_error h'
    exact .inl ⟨h', b0, b1, by unfold cycle; rw [hf]⟩

theorem step_of_running {s : State} (h : s.running = true) : step s = cycle s := by simp [step, h]

theorem step_of_loaded {s : State} (h : s.running = false) (hc : s.hc = .none) : step s = cycle s.start := by
  simp [step, h, hc]

theorem step_of_halted {s : State} (h : s.running = false) (hc : s.hc ≠ .none) : step s = .fault .halted := by
  simp [step, h, hc]

/-- What a step that answers a next state did: one cycle, from the state itself if Running, from the started state if
Loaded. -/
theorem step_cases {s t : State} (h : step s = .next t) :
    (s.running = true ∧ cycle s = .next t) ∨ (s.running = false ∧ s.hc = .none ∧ cycle s.start = .next t) := by
  cases hr : s.running with
  | true => exact .inl ⟨rfl, by rwa [step_of_running hr] at h⟩
  | false =>
    by_cases hc : s.hc = .none
    · exact .inr ⟨rfl, hc, by rwa [step_of_loaded hr hc] at h⟩
    · rw [step_of_halted hr hc] at h
      cases h

end Sys2Proof.Machine
end

