-- ==== Sys2Proof/Laws/PerInstr.lean ====
section
/-!
SUPPORT. Facts stated once per instruction, as syntax: the encoding's length is what the opcode byte's top two bits say.
-/

namespace Sys2Proof.Laws.EncodedLength

/-- The instruction's encoding has as many bytes as its opcode byte says (30_encoding.md R72, R74). -/
def Statement (i : Instr) : Prop := (encode i).length = opLength (opcodeOf i.op)

theorem hlt : Statement .hlt := show 1 = opLength 0x01 by decide
theorem ldi (a b : Byte) : Statement (.ldi a b) := show 3 = opLength 0x82 by decide
theorem prn (a : Byte) : Statement (.prn a) := show 2 = opLength 0x47 by decide
theorem add (a b : Byte) : Statement (.add a b) := show 3 = opLength 0xA0 by decide
theorem sub (a b : Byte) : Statement (.sub a b) := show 3 = opLength 0xA1 by decide
theorem mul (a b : Byte) : Statement (.mul a b) := show 3 = opLength 0xA2 by decide
theorem cmp (a b : Byte) : Statement (.cmp a b) := show 3 = opLength 0xA7 by decide
theorem and (a b : Byte) : Statement (.and a b) := show 3 = opLength 0xA8 by decide
theorem or (a b : Byte) : Statement (.or a b) := show 3 = opLength 0xAA by decide
theorem xor (a b : Byte) : Statement (.xor a b) := show 3 = opLength 0xAB by decide
theorem not (a : Byte) : Statement (.not a) := show 2 = opLength 0x69 by decide
theorem push (a : Byte) : Statement (.push a) := show 2 = opLength 0x45 by decide
theorem pop (a : Byte) : Statement (.pop a) := show 2 = opLength 0x46 by decide
theorem call (a : Byte) : Statement (.call a) := show 2 = opLength 0x50 by decide
theorem ret : Statement .ret := show 1 = opLength 0x11 by decide
theorem jmp (a : Byte) : Statement (.jmp a) := show 2 = opLength 0x54 by decide
theorem jeq (a : Byte) : Statement (.jeq a) := show 2 = opLength 0x55 by decide
theorem jne (a : Byte) : Statement (.jne a) := show 2 = opLength 0x56 by decide

end Sys2Proof.Laws.EncodedLength
end

