-- ==== Sys2Proof/Tests/Slice0.lean ====
section
/-!
SUPPORT. Tests and witnesses. Expected results come from the spec: the table of 30_encoding.md R77, the vectors V<n> and
scenarios S<n> of 95_test_vectors.md. A witness shows values that meet the hypotheses of a statement, at the boundary of
their range.
-/

namespace Sys2Proof.Tests

open Sys2Proof.Machine Sys2Proof.Safety

/-- A running core just after reset with bytes placed at a given pc. -/
def demoAt (pc : PcWord) (bytes : List Byte) : State :=
  { (State.reset.placeBytes pc.toNat bytes) with pc := pc, running := true }

/-- The same at pc = 0. -/
def demo (bytes : List Byte) : State := demoAt 0 bytes

/-- The core of `demoAt` after HLT at its pc. -/
def haltedDemo : State := { demo [] with running := false, hc := .halt 0, pc := 1 }

/-- An outcome is a next state with a property. -/
def holds (o : Host.Outcome State Fault Refusal) (p : State → Bool) : Bool :=
  match o with
  | .next t => p t
  | .fault _ => false
  | .refused _ => false

/-- An outcome is the fault `halted`. -/
def isHaltedFault : Host.Outcome State Fault Refusal → Bool
  | .fault .halted => true
  | _ => false

/-! ### Decoding: one word per constructor, bit by bit from R77 -/

theorem test_decode_hlt : decode 0b00000001 0b11111111 0b11111111 = .instr .hlt := by decide
theorem test_decode_ldi : decode 0b10000010 0b00000000 0b00001000 = .instr (.ldi 0 8) := by decide
theorem test_decode_prn : decode 0b01000111 0b00000010 0b11111111 = .instr (.prn 2) := by decide
theorem test_decode_add : decode 0b10100000 0b00000000 0b00000001 = .instr (.add 0 1) := by decide
theorem test_decode_sub : decode 0b10100001 0b00000000 0b00000001 = .instr (.sub 0 1) := by decide
theorem test_decode_mul : decode 0b10100010 0b00000000 0b00000001 = .instr (.mul 0 1) := by decide
theorem test_decode_cmp : decode 0b10100111 0b00000000 0b00000001 = .instr (.cmp 0 1) := by decide
theorem test_decode_and : decode 0b10101000 0b00000000 0b00000001 = .instr (.and 0 1) := by decide
theorem test_decode_or : decode 0b10101010 0b00000000 0b00000001 = .instr (.or 0 1) := by decide
theorem test_decode_xor : decode 0b10101011 0b00000000 0b00000001 = .instr (.xor 0 1) := by decide
theorem test_decode_not : decode 0b01101001 0b00000111 0b00000000 = .instr (.not 7) := by decide
theorem test_decode_push : decode 0b01000101 0b00000011 0b00000000 = .instr (.push 3) := by decide
theorem test_decode_pop : decode 0b01000110 0b00000011 0b00000000 = .instr (.pop 3) := by decide
theorem test_decode_call : decode 0b01010000 0b00000001 0b00000000 = .instr (.call 1) := by decide
theorem test_decode_ret : decode 0b00010001 0b00000001 0b00000001 = .instr .ret := by decide
theorem test_decode_jmp : decode 0b01010100 0b00000011 0b00000000 = .instr (.jmp 3) := by decide
theorem test_decode_jeq : decode 0b01010101 0b00000010 0b00000000 = .instr (.jeq 2) := by decide
theorem test_decode_jne : decode 0b01010110 0b00001001 0b00000000 = .instr (.jne 9) := by decide

/-- V6, V7, V8: 0x00, 0xC0 and LDI with bit 0 changed are illegal. -/
theorem test_decode_illegal : decode 0x00 0 0 = .unknownInstruction 0x00 ∧ decode 0xC0 0 0 = .unknownInstruction 0xC0 ∧
    decode 0x83 0 5 = .unknownInstruction 0x83 := by decide

/-- The first byte of a table word is its low byte. -/
theorem test_decodeTableWord : decodeTableWord 24 0x080082 = some (.ldi 0 8) ∧ decodeTableWord 8 0x82 = some (.ldi 0 0) ∧
    decodeTableWord 8 0x0980A0 = some (.add 0 0) ∧ decodeTableWord 8 0x00 = none := by decide

/-! ### Well-formedness: the check refuses a register operand above 7, in either place (R75) -/

theorem test_wellFormed_refuses_operand_a : (Instr.push 8).wellFormed = false := by decide
theorem test_wellFormed_refuses_operand_b : (Instr.add 7 255).wellFormed = false := by decide
theorem test_wellFormed_accepts : (Instr.ldi 7 255).wellFormed = true ∧ Instr.ret.wellFormed = true := by decide

/-! ### One step per instruction, from the vectors -/

/-- V12 at pc 7. -/
theorem test_hlt : holds (step (demoAt 7 [0x01])) (fun t => !t.running && t.hc = .halt 7 && t.pc = 8) = true := by decide
/-- V1: HLT at 253 executes. -/
theorem test_hlt_at_253 : holds (step (demoAt 253 [0x01])) (fun t => t.hc = .halt 253 && t.pc = 254) = true := by decide
/-- V13 and V5: LDI at 253 leaves pc at 256. -/
theorem test_ldi : holds (step (demo [0x82, 3, 0xFF])) (fun t => t.reg 3 = 0xFF && t.pc = 3) = true ∧
    holds (step (demoAt 253 [0x82, 0, 5])) (fun t => t.reg 0 = 5 && t.pc = 256 && t.running) = true := by decide
/-- V15. -/
theorem test_ldi_bad_register : holds (step (demo [0x82, 8, 5])) (fun t => t.hc = .addressError .register 8 0 && t.pc = 0 &&
    !t.running) = true := by decide
/-- V17 and V19. -/
theorem test_prn : holds (step ((demo [0x47, 2]).setReg 2 0xFF)) (fun t => t.out = [255] && t.pc = 2) = true ∧
    holds (step (demo [0x47, 7])) (fun t => t.out = [244]) = true := by decide
/-- V22 and V40. -/
theorem test_add : holds (step (((demo [0xA0, 0, 1]).setReg 0 200).setReg 1 100)) (fun t => t.reg 0 = 44 && t.pc = 3) = true ∧
    holds (step ((demo [0xA0, 7, 1]).setReg 1 2)) (fun t => t.reg 7 = 0xF6) = true := by decide
/-- V46 and V47: operand a is checked first. -/
theorem test_add_check_order : holds (step (demo [0xA0, 9, 12])) (fun t => t.hc = .addressError .register 9 0) = true ∧
    holds (step (demo [0xA0, 0, 12])) (fun t => t.hc = .addressError .register 12 0) = true := by decide
/-- V25: which operand is subtracted. -/
theorem test_sub : holds (step (((demo [0xA1, 0, 1]).setReg 0 3).setReg 1 5)) (fun t => t.reg 0 = 0xFE) = true := by decide
/-- V29. -/
theorem test_mul : holds (step (((demo [0xA2, 0, 1]).setReg 0 0xFF).setReg 1 0xFF)) (fun t => t.reg 0 = 1) = true := by decide
/-- V43 clears E; V42 sets it. -/
theorem test_cmp :
    holds (step { ((demo [0xA7, 0, 1]).setReg 0 0x7F).setReg 1 0x80 with fl := 1 }) (fun t => t.fl = 0 && t.reg 0 = 0x7F) = true ∧
    holds (step (((demo [0xA7, 0, 1]).setReg 0 0x7F).setReg 1 0x7F)) (fun t => t.fl = 1) = true := by decide
/-- V48: a faulting CMP leaves FL. -/
theorem test_cmp_fault : holds (step { demo [0xA7, 8, 0] with fl := 1 }) (fun t => t.fl = 1 &&
    t.hc = .addressError .register 8 0) = true := by decide
/-- V33. -/
theorem test_and : holds (step (((demo [0xA8, 0, 1]).setReg 0 0xCC).setReg 1 0xAA)) (fun t => t.reg 0 = 0x88) = true := by decide
/-- V34. -/
theorem test_or : holds (step (((demo [0xAA, 0, 1]).setReg 0 0xCC).setReg 1 0xAA)) (fun t => t.reg 0 = 0xEE) = true := by decide
/-- V35. -/
theorem test_xor : holds (step (((demo [0xAB, 0, 1]).setReg 0 0xCC).setReg 1 0xAA)) (fun t => t.reg 0 = 0x66) = true := by decide
/-- V38, and V10's unused byte. -/
theorem test_not : holds (step ((demo [0x69, 0, 0xFF]).setReg 0 0x5A)) (fun t => t.reg 0 = 0xA5 && t.pc = 2) = true := by decide
/-- V51 and V52. -/
theorem test_push : holds (step (demo [0x45, 7])) (fun t => t.byteAt 0xF3 = 0xF4 && t.reg 7 = 0xF3) = true ∧
    holds (step (((demo [0x45, 0]).setReg 0 0x2A).setReg 7 0)) (fun t => t.byteAt 0xFF = 0x2A && t.reg 7 = 0xFF) = true := by
  decide
/-- V57. -/
theorem test_push_fault : holds (step (demo [0x45, 8])) (fun t => t.byteAt 0xF3 = 0 && t.reg 7 = 0xF4 &&
    t.hc = .addressError .register 8 0) = true := by decide
/-- V53 and V54. -/
theorem test_pop : holds (step (((demo [0x46, 7]).setReg 7 0xF3).setByte 0xF3 0x40)) (fun t => t.reg 7 = 0x40 && t.pc = 2) = true ∧
    holds (step (((demo [0x46, 0]).setReg 7 0xFF).setByte 0xFF 0x77)) (fun t => t.reg 0 = 0x77 && t.reg 7 = 0 &&
      t.byteAt 0xFF = 0x77) = true := by decide
/-- V56. -/
theorem test_pop_fault : holds (step (demo [0x46, 8])) (fun t => t.reg 7 = 0xF4 && t.hc = .addressError .register 8 0) = true := by
  decide
/-- V58 and V59: CALL R7 goes to the decremented stack pointer. -/
theorem test_call : holds (step ((demoAt 6 [0x50, 1]).setReg 1 11)) (fun t => t.byteAt 0xF3 = 8 && t.reg 7 = 0xF3 && t.pc = 11) = true ∧
    holds (step (demoAt 0x10 [0x50, 7])) (fun t => t.byteAt 0xF3 = 0x12 && t.pc = 0xF3) = true := by decide
/-- V61. -/
theorem test_call_fault : holds (step (demo [0x50, 8])) (fun t => t.byteAt 0xF3 = 0 && t.reg 7 = 0xF4 && t.pc = 0) = true := by decide
/-- V62 and V63. -/
theorem test_ret : holds (step (((demo [0x11]).setReg 7 0xF3).setByte 0xF3 8)) (fun t => t.pc = 8 && t.reg 7 = 0xF4) = true ∧
    holds (step (demo [0x11])) (fun t => t.pc = 0 && t.reg 7 = 0xF5) = true := by decide
/-- V64 and V65. -/
theorem test_jmp : holds (step ((demoAt 20 [0x54, 3]).setReg 3 12)) (fun t => t.pc = 12) = true ∧
    holds (step ((demo [0x54, 0]).setReg 0 0xFE)) (fun t => t.pc = 254 && t.running) = true := by decide
/-- V67 and V69: a branch not taken checks no register. -/
theorem test_jeq : holds (step { (demoAt 10 [0x55, 2]).setReg 2 40 with fl := 1 }) (fun t => t.pc = 40) = true ∧
    holds (step (demo [0x55, 9])) (fun t => t.pc = 2 && t.running) = true := by decide
/-- V70. -/
theorem test_jeq_fault : holds (step { demo [0x55, 9] with fl := 1 }) (fun t => t.hc = .addressError .register 9 0) = true := by decide
/-- V71 and V73. -/
theorem test_jne : holds (step ((demoAt 20 [0x56, 3]).setReg 3 12)) (fun t => t.pc = 12) = true ∧
    holds (step { demo [0x56, 9] with fl := 1 }) (fun t => t.pc = 2 && t.running) = true := by decide
/-- V74. -/
theorem test_jne_fault : holds (step (demo [0x56, 9])) (fun t => t.hc = .addressError .register 9 0) = true := by decide

/-! ### The cycle, reset and the ports -/

/-- V2, V3 and V4: from 254 on the fetch faults and reports 256. -/
theorem test_fetch_past_top : holds (step (demoAt 254 [0x01])) (fun t => t.hc = .addressError .memory 256 254 && t.pc = 254) = true ∧
    holds (step (demoAt 255 [0x01])) (fun t => t.hc = .addressError .memory 256 255) = true ∧
    holds (step (demoAt 256 [])) (fun t => t.hc = .addressError .memory 256 256) = true := by decide
/-- S8 and V6. -/
theorem test_unknown : holds (step (demo [0xFF])) (fun t => t.hc = .unknownInstruction 0xFF 0 && !t.running && t.pc = 0) = true ∧
    holds (step (demo [])) (fun t => t.hc = .unknownInstruction 0 0) = true := by decide
/-- A table word placed in the reset state runs as the first instruction (R184: Loaded starts). -/
theorem test_withFetchWord : holds (step (State.reset.withFetchWord 24 0x080082)) (fun t => t.reg 0 = 8 && t.running && t.pc = 3) = true ∧
    holds (step (State.reset.withFetchWord 8 0x01)) (fun t => t.hc = .halt 0) = true := by decide
/-- V75: no step once Halted. -/
theorem test_halted : isHaltedFault (step haltedDemo) = true ∧ haltedDemo.hostRun 5 = haltedDemo := by decide
/-- V76. -/
theorem test_snapshot : (demoAt 254 [1, 2]).snapshot.next3bytes = [some 1, some 2, none] := by decide
/-- V77 and S9. -/
theorem test_host_access : (match State.reset.loadWrite 256 1 with | .error (.addressError 256) => true | _ => false) = true ∧
    (match State.reset.hostRead 300 with | .error (.addressError 300) => true | _ => false) = true := by decide
/-- S6: "8" and a line feed; V17: "255". -/
theorem test_render : renderEntry 8 = ['8', '\n'] ∧ renderEntry 255 = ['2', '5', '5', '\n'] ∧ renderEntry 0 = ['0', '\n'] := by decide
/-- R88's form, with both letters and all three kinds of immediate. -/
theorem test_assemble : assemble ['L', 'D', 'I', ' ', 'r', '0', ',', '8'] = some (.ldi 0 8) ∧
    assemble ['L', 'D', 'I', ' ', 'R', '7', ',', '0', 'x', 'F', '4'] = some (.ldi 7 0xF4) ∧
    assemble ['L', 'D', 'I', ' ', 'r', '1', ',', '0', 'b', '1', '0', '1'] = some (.ldi 1 5) ∧
    assemble ['M', 'U', 'L', ' ', 'r', '0', ',', 'r', '1'] = some (.mul 0 1) ∧ assemble ['H', 'L', 'T'] = some .hlt := by decide
/-- Lines the syntax does not have. -/
theorem test_assemble_refuses : assemble ['N', 'O', 'P'] = none ∧ assemble ['P', 'R', 'N', ' ', 'r', '8'] = none ∧
    assemble ['L', 'D', 'I', ' ', 'r', '0', ',', '2', '5', '6'] = none ∧ assemble ['R', 'E', 'T', ' ', 'r', '0'] = none ∧
    assemble ['P', 'R', 'N'] = none ∧ assemble ['A', 'D', 'D', ' ', 'r', '0'] = none := by decide

/-! ### Witnesses: the hypotheses of each statement can be met -/

/-- The top-of-memory clause, at both ends of its range. -/
theorem witness_TopFetch : (demoAt 254 []).running = true ∧ 254 ≤ (demoAt 254 []).pc.toNat ∧ (demoAt 256 []).running = true ∧
    (demoAt 256 []).pc.toNat ≤ 256 := by decide
theorem witness_HltStopsAndRecords : (demoAt 254 [0x01]).running = true ∧ (demoAt 254 [0x01]).pc.toNat = 254 ∧
    holds (exec .hlt (demo [])) (fun t => isHaltedFault (step t)) = true := by decide
theorem witness_LdiLoadsImmediate : (7 : Byte).toNat < 8 ∧ 7 < (8 : Byte).toNat ∧
    holds (exec (.ldi 7 0xFF) (demo [])) (fun t => t.sp = 0xFF) = true := by decide
theorem witness_PrnAppendsRegister : (7 : Byte).toNat < 8 ∧ 7 < (8 : Byte).toNat ∧
    holds (exec (.prn 7) (demo [])) (fun t => t.out = [0xF4]) = true := by decide
theorem witness_AddWrapsModulo256 : (7 : Byte).toNat < 8 ∧ (0 : Byte).toNat < 8 ∧ 7 < (8 : Byte).toNat ∧ (7 : Byte).toNat ≤ 7 ∧
    holds (exec (.add 7 7) (demo [])) (fun t => t.sp = 0xE8) = true := by decide
theorem witness_SubWrapsModulo256 : (7 : Byte).toNat < 8 ∧ 7 < (255 : Byte).toNat ∧ (7 : Byte).toNat ≤ 7 ∧
    holds (exec (.sub 0 7) (demo [])) (fun t => t.reg 0 = 0x0C) = true := by decide
theorem witness_MulKeepsLowByte : (7 : Byte).toNat < 8 ∧ 7 < (8 : Byte).toNat ∧ (7 : Byte).toNat ≤ 7 ∧
    holds (exec (.mul 7 7) (demo [])) (fun t => t.sp = 0x90) = true := by decide
theorem witness_CmpWritesEqualFlag : (7 : Byte).toNat < 8 ∧ (0 : Byte).toNat < 8 ∧ 7 < (8 : Byte).toNat ∧ (7 : Byte).toNat ≤ 7 ∧
    (demo []).reg 0 = (demo []).reg 6 ∧ (demo []).reg 0 ≠ (demo []).reg 7 := by decide
theorem witness_AndIsBitwise : (7 : Byte).toNat < 8 ∧ 7 < (8 : Byte).toNat ∧ (7 : Byte).toNat ≤ 7 ∧
    holds (exec (.and 7 0) (demo [])) (fun t => t.sp = 0) = true := by decide
theorem witness_OrIsBitwise : (7 : Byte).toNat < 8 ∧ 7 < (8 : Byte).toNat ∧ (7 : Byte).toNat ≤ 7 ∧
    holds (exec (.or 0 7) (demo [])) (fun t => t.reg 0 = 0xF4) = true := by decide
theorem witness_XorIsBitwise : (7 : Byte).toNat < 8 ∧ 7 < (8 : Byte).toNat ∧ (7 : Byte).toNat ≤ 7 ∧
    holds (exec (.xor 7 7) (demo [])) (fun t => t.sp = 0) = true := by decide
theorem witness_NotComplementsRegister : (7 : Byte).toNat < 8 ∧ 7 < (8 : Byte).toNat ∧
    holds (exec (.not 7) (demo [])) (fun t => t.sp = 0x0B) = true := by decide
theorem witness_PushStoresBelowStackPointer : (7 : Byte).toNat < 8 ∧ 7 < (8 : Byte).toNat ∧
    holds (exec (.push 7) (demo [])) (fun t => t.byteAt 0xF3 = 0xF4) = true := by decide
theorem witness_PopReadsAtStackPointer : (7 : Byte).toNat < 8 ∧ 7 < (8 : Byte).toNat ∧
    holds (exec (.pop 0) (demo [])) (fun t => t.sp = 0xF5) = true := by decide
theorem witness_CallPushesReturnAddress : (7 : Byte).toNat < 8 ∧ (demoAt 253 []).pc.toNat ≤ 253 ∧ 7 < (8 : Byte).toNat ∧
    holds (exec (.call 7) (demoAt 253 [])) (fun t => t.byteAt 0xF3 = 0xFF && t.pc = 0xF3) = true := by decide
theorem witness_RetPopsProgramCounter : (demoAt 254 [0x11]).running = true ∧ (demoAt 254 [0x11]).pc.toNat = 254 ∧
    holds (exec .ret (demo [])) (fun t => t.pc = 0) = true := by decide
theorem witness_JmpGoesToRegister : (7 : Byte).toNat < 8 ∧ 7 < (8 : Byte).toNat ∧ target ((demo []).reg 0) = (demo []).pc := by decide
theorem witness_JeqBranchesOnEqual : (7 : Byte).toNat < 8 ∧ 7 < (8 : Byte).toNat ∧
    ({ demo [] with fl := 1 } : State).fl.getLsbD 0 = true ∧ (demo []).fl.getLsbD 0 = false := by decide
theorem witness_JneBranchesOnNotEqual : (7 : Byte).toNat < 8 ∧ 7 < (8 : Byte).toNat ∧
    ({ demo [] with fl := 1 } : State).fl.getLsbD 0 = true ∧ (demo []).fl.getLsbD 0 = false := by decide
theorem witness_DecodeOfEncodeIsIdentity : encode .hlt <+: [0x01, 0xFF, 0xFF] ∧ encode (.push 255) <+: [0x45, 0xFF, 0] ∧
    encode (.ldi 7 255) <+: [0x82, 7, 0xFF] := by decide
theorem witness_EncodeOfDecodeIsPrefix : decode 0x11 0xFF 0xFF = .instr .ret ∧ decode 0xA0 0xFF 0xFF = .instr (.add 255 255) := by decide
theorem witness_LengthAndOwnPcFormulas : lookupOp 0x11 = some .ret ∧ lookupOp 0x82 = some .ldi ∧ opLength 0xC0 = 4 ∧
    opLength 0xFF = 4 := by decide
theorem witness_UnusedOperandBytesIgnored : (demoAt 253 []).pc.toNat ≤ 253 ∧ opLength 0x45 ≤ 2 ∧ opLength 0x01 = 1 ∧
    opLength 0x00 = 1 := by decide
theorem witness_StepRunsDecodedInstruction : (demoAt 253 [0x01]).pc.toNat ≤ 253 ∧ windowInstr (demoAt 253 [0x01]) = .instr .hlt ∧
    (demoAt 253 [0x01]).running = true ∧ windowInstr (State.reset.setByte 0 0x01) = .instr .hlt ∧
    (State.reset.setByte 0 0x01).isLoaded = true := by decide
theorem witness_FetchWindowFaultsPastTop : (demoAt 254 []).running = true ∧ 254 ≤ (demoAt 254 []).pc.toNat ∧
    (demoAt 256 []).pc.toNat ≤ 256 ∧ (State.resetAt 254).isLoaded = true ∧ (State.resetAt 254).pc.toNat = 254 := by decide
theorem witness_UnknownOpcodeIsReported : (demo []).running = true ∧ (demo []).pc.toNat ≤ 253 ∧
    lookupOp ((demo []).byteAt 0) = none ∧ State.reset.isLoaded = true ∧
    holds (exec .ret { demo [] with hc := .unknownInstruction 0 0 }) (fun t => t.hc = .unknownInstruction 0 0) = true := by decide
theorem witness_HaltedIsTerminal : Inv haltedDemo ∧ haltedDemo.hc ≠ .none :=
  ⟨⟨by decide, by decide, by decide, by decide, by constructor <;> decide⟩, by decide⟩
theorem witness_FatalErrorsArePrecise : (demo [0x45, 8]).hc = .none ∧ holds (step (demo [0x45, 8])) (fun t => IsFatal t.hc) = true ∧
    holds (step (demo [0xFF])) (fun t => IsFatal t.hc) = true ∧ holds (step (demoAt 254 [])) (fun t => IsFatal t.hc) = true := by decide
theorem witness_RegisterFaultTable : badOperand true (.jeq 8) = some 8 ∧ badOperand false (.jeq 8) = none ∧
    badOperand true (.jne 8) = none ∧ badOperand false (.add 7 9) = some 9 ∧ badOperand false (.add 8 9) = some 8 ∧
    badOperand false (.ldi 7 255) = none := by decide
theorem witness_StepKeepsInvariant : Inv (demo [0x45, 7]) ∧ holds (step (demo [0x45, 7])) (fun t => t.byteAt 0xF3 = 0xF4) = true :=
  ⟨⟨by decide, by decide, by decide, by decide, trivial⟩, by decide⟩
theorem witness_RegisterFrame : holds (exec (.pop 3) (demo [])) (fun _ => true) = true ∧ (6 : Fin 8).val ∉ writtenRegs (.pop 3) := by decide
theorem witness_MemoryFrame : holds (exec (.push 0) (demo [])) (fun _ => true) = true ∧
    storeAddr (demo []) (.push 0) = some 0xF3 ∧ storeAddr (demo []) (.push 0) ≠ some 0xF4 ∧ storeAddr (demo []) .ret ≠ some 0 := by decide
theorem witness_OnlyCmpWritesFlagRegister :
    holds (step (demoAt 253 [0xA7, 3, 3])) (fun t => t.fl = 1 && t.running && t.hc = .none) = true ∧
    holds (step (demo [0xA7, 8, 3])) (fun t => t.fl = 0 && !t.running) = true ∧
    (demo []).fl.extractLsb' 1 7 = 0 ∧ holds (exec (.jeq 0) (demo [])) (fun _ => true) = true ∧
    holds (exec (.jeq 0) { demo [] with fl := 1 }) (fun _ => true) = true := by decide
theorem witness_OnlyPrnAppendsOutput : holds (step (demo [0x47, 7])) (fun t => t.out = [0xF4]) = true ∧
    holds (step (demo [0x69, 0])) (fun t => t.out = []) = true ∧
    (demoAt 253 [0x47, 7]).pc.toNat ≤ 253 ∧ windowInstr (demoAt 253 [0x47, 7]) = .instr (.prn 7) ∧ (7 : Byte).toNat < 8 ∧
    holds (step (demoAt 253 [0x47, 7])) (fun t => t.out = [0xF4]) = true := by decide
theorem witness_EngineStateFrame : holds (exec (.add 0 7) (demo [])) (fun t => t.running) = true ∧ Instr.add 0 7 ≠ .hlt ∧
    badOperand false (.add 0 7) = none ∧ (∀ a, Instr.add 0 7 ≠ .prn a) := by
  exact ⟨by decide, by decide, by decide, fun a h => by cases h⟩
theorem witness_OnlyHltOrFatalErrorStops : holds (step (demo [0x01])) (fun t => !t.running) = true ∧
    holds (step (demo [0x00])) (fun t => !t.running) = true ∧ holds (step (demo [0x11])) (fun t => t.running) = true := by decide
theorem witness_PcAfterInstruction : (demoAt 253 []).pc.toNat ≤ 253 ∧ badOperand false (.ldi 0 0) = none ∧
    holds (exec (.ldi 0 0) (demoAt 253 [])) (fun t => t.pc = 256) = true ∧ opOwnPc (opcodeOf .ldi) = false ∧
    holds (exec (.jeq 9) (demoAt 253 [])) (fun t => t.pc = 255) = true ∧ badOperand false (.jeq 9) = none ∧
    opOwnPc (opcodeOf .jeq) = true := by decide
theorem witness_ArithmeticNeverFaults : isAlu (.mul 7 0) = true ∧ (Instr.mul 7 0).wellFormed = true ∧
    holds (exec (.mul 8 0) (demo [])) (fun t => t.hc = .addressError .register 8 0) = true := by decide
theorem witness_PushPopRoundTrip : (6 : Byte).toNat < 7 ∧ (0 : Byte).toNat < 7 ∧ Memory.wf (demo []).mem = true ∧
    holds (exec (.push 6) (demo [])) (fun t => decide (t.sp = 0xF3)) = true := by decide
theorem witness_CallRetRoundTrip : (7 : Byte).toNat < 8 ∧ (demoAt 253 []).pc.toNat ≤ 253 ∧ Memory.wf (demoAt 253 []).mem = true := by decide
/-- The second program of P7 in 95_test_vectors.md, at its PUSH: the store lands on the PUSH's operand byte. -/
def ownOperandDemo : State := ((demoAt 6 [0x45, 0, 0x47]).setReg 7 8).setReg 0 1
theorem witness_OwnOperandStoreUsesFetchedByte : (0 : Byte).toNat < 8 ∧ ownOperandDemo.running = true ∧
    Memory.wf ownOperandDemo.mem = true ∧ ownOperandDemo.pc.toNat ≤ 253 ∧ ownOperandDemo.byteAt 6 = 0x45 ∧
    ownOperandDemo.byteAt 7 = 0 ∧ (ownOperandDemo.sp - 1).toNat = 7 := by decide
/-- V66: JMP R0 to its own address. -/
def selfJump : State := (demoAt 4 [0x54, 0]).setReg 0 4
theorem witness_RunMayBeInfinite : (0 : Byte).toNat < 8 ∧ selfJump.running = true ∧ selfJump.hc = .none ∧ selfJump.pc.toNat ≤ 253 ∧
    Safety.windowInstr selfJump = .instr (.jmp 0) ∧ (selfJump.reg 0).toNat = selfJump.pc.toNat ∧
    holds (step selfJump) (fun t => t.pc = 4 && t.running && t.hc = .none) = true := by decide
/-- The first clause of `RunMayBeInfinite`: every number of steps of the self-jump leaves HC at NONE. -/
theorem witness_RunMayBeInfinite_noHalt : ∀ n, (selfJump.hostSteps n).hc = .none := by
  have h1 : selfJump.hostStep = selfJump.latched := by decide
  have h2 : selfJump.latched.hostStep = selfJump.latched := by decide
  have h3 : ∀ n, selfJump.latched.hostSteps n = selfJump.latched := by
    intro n
    induction n with
    | zero => rfl
    | succ n ih => rw [State.hostSteps, h2, ih]
  intro n
  cases n with
  | zero => rfl
  | succ n => rw [State.hostSteps, h1, h3]; rfl
theorem witness_SingleSteppingEqualsRunning : (demo [0x01]).running = true ∧
    holds (cycle (demo [0x01])) (fun t => t.hc = .halt 0) = true := by decide
theorem witness_ResetDecidedValues : (6 : Fin 8).val < 7 ∧ State.reset.isLoaded = true := by decide
theorem witness_ResetMemoryAndStackPointer : (255 : Nat) < 256 ∧ (State.resetAt 255).byteAt 255 = 0 := by decide
theorem witness_MemReadNeverWraps : (255 : Nat) ≤ 255 ∧ (255 : Nat) < 256 ∧
    (match memRead (demo []) 256 with | .error (.addressError .memory 256) => true | _ => false) = true := by decide
theorem witness_CanonicalMemoryIsItsBytes : Memory.wf [(0, 1), (255, 255)] = true ∧
    Memory.wf (Memory.write (Memory.write [] 255 255) 0 1) = true ∧
    (∀ addr, addr < 256 → Memory.read [(0, 1), (255, 255)] addr = Memory.read (Memory.write (Memory.write [] 255 255) 0 1) addr) :=
  ⟨by decide, by decide, fun _ _ => rfl⟩
theorem witness_HostAccessorsStayInRange : State.reset.isLoaded = true ∧ Memory.wf State.reset.mem = true ∧ (255 : Nat) ≤ 255 ∧
    (255 : Nat) < 256 ∧ (demo []).isLoaded = false ∧ haltedDemo.isLoaded = false := by decide
theorem witness_LoaderPlacesProgram : State.reset.isLoaded = true ∧ Memory.wf State.reset.mem = true ∧ (253 : Nat) ≤ 255 ∧
    253 + [(1 : Byte), 2, 3].length ≤ 256 ∧ 256 < 254 + [(1 : Byte), 2, 3].length := by decide
theorem witness_SnapshotShowsVisibleState : (2 : Nat) < (demoAt 253 []).snapshot.next3bytes.length ∧
    (demoAt 253 []).pc.toNat + 2 ≤ 255 := by decide
theorem witness_OutputRendersAsDecimalLines : (decimalDigits 0).head? = some '0' := by decide
theorem witness_AssemblerReadsItsOwnText : (Instr.ldi 7 255).wellFormed = true ∧ (Instr.add 7 0).wellFormed = true ∧
    Instr.hlt.wellFormed = true := by decide

end Sys2Proof.Tests
end

section
/-!
PROOFS. What an instruction does, said once for all of them: either it raises AddressError(REGISTER) with the operand byte
`badOperand` names, or it completes with `effect`. The frames of FL and of the output stream follow from it.
-/

namespace Sys2Proof.Machine

open Sys2Proof.Safety

/-! ### The effect of an instruction whose operands are legal -/

/-- The register an operand byte in 0..7 names, made total: the operand checks of the model leave no other byte. -/
def regIndex (b : Byte) : Fin 8 := Fin.ofNat 8 b.toNat

theorem regIndex_of_lt {b : Byte} (h : b.toNat < 8) : regIndex b = ⟨b.toNat, h⟩ := Fin.ext (Nat.mod_eq_of_lt h)

/-- The state `Push(v)` answers (20_memory.md R55; `push_eq`). -/
def State.pushed (s : State) (v : Byte) : State :=
  (s.setReg Config.spIndex (pushAddr s)).setByte (pushAddr s).toNat v

/-- The state `Pop()` answers (20_memory.md R56; `pop_eq`). -/
def State.popped (s : State) : State := s.setReg Config.spIndex (s.sp + 1)

/-- The effect of a two-register ALU instruction that writes `x[a]`. -/
def State.aluWrite (s : State) (f : Byte → Byte → Byte) (a b : Byte) : State :=
  s.setReg (regIndex a) (f (s.reg (regIndex a)) (s.reg (regIndex b)))

/-- What an instruction that completes does before the pc advance; `exec_eq` ties it to the model. -/
def effect : Instr → State → State
  | .hlt, s => s.halt
  | .ldi a b, s => s.setReg (regIndex a) (immediate b)
  | .prn a, s => s.emit (s.reg (regIndex a))
  | .add a b, s => s.aluWrite aluAdd a b
  | .sub a b, s => s.aluWrite aluSub a b
  | .mul a b, s => s.aluWrite aluMul a b
  | .cmp a b, s => s.setFl (equalFlag (s.reg (regIndex a)) (s.reg (regIndex b)))
  | .and a b, s => s.aluWrite (fun v w => v &&& w) a b
  | .or a b, s => s.aluWrite (fun v w => v ||| w) a b
  | .xor a b, s => s.aluWrite (fun v w => v ^^^ w) a b
  | .not a, s => s.setReg (regIndex a) (~~~ s.reg (regIndex a))
  | .push a, s => s.pushed (s.reg (regIndex a))
  | .pop a, s => s.popped.setReg (regIndex a) (s.byteAt s.sp.toNat)
  | .call a, s =>
    (s.pushed (returnAddr s)).setPc (target ((s.pushed (returnAddr s)).reg (regIndex a)))
  | .ret, s => s.popped.setPc (target (s.byteAt s.sp.toNat))
  | .jmp a, s => s.setPc (target (s.reg (regIndex a)))
  | .jeq a, s => s.setPc (if s.flagE then target (s.reg (regIndex a)) else fallThrough s)
  | .jne a, s => s.setPc (if s.flagE then fallThrough s else target (s.reg (regIndex a)))

/-- The answer of a rule whose only error is a bad register operand. -/
def checked (bad : Option Byte) (t : State) : Except FatalError State :=
  match bad with
  | none => .ok t
  | some b => .error (.addressError .register b.toNat)

theorem withReg_eq_checked {a : Byte} {k : Fin 8 → Except FatalError State} {t : State}
    (hk : k (regIndex a) = .ok t) : withReg a k = checked (firstBadReg [a]) t := by
  by_cases ha : a.toNat < 8
  · rw [withReg_ok ha, ← regIndex_of_lt ha, hk]
    simp [firstBadReg, ha, checked]
  · rw [withReg_bad (Nat.not_lt.1 ha)]
    simp [firstBadReg, ha, checked]

theorem withRegs_eq_checked {a b : Byte} {k : Fin 8 → Fin 8 → Except FatalError State} {t : State}
    (hk : k (regIndex a) (regIndex b) = .ok t) : withRegs a b k = checked (firstBadReg [a, b]) t := by
  by_cases ha : a.toNat < 8
  · by_cases hb : b.toNat < 8
    · rw [withRegs_ok ha hb, ← regIndex_of_lt ha, ← regIndex_of_lt hb, hk]
      simp [firstBadReg, ha, hb, checked]
    · rw [withRegs_bad_b ha (Nat.not_lt.1 hb)]
      simp [firstBadReg, ha, hb, checked]
  · rw [withRegs_bad_a (Nat.not_lt.1 ha)]
    simp [firstBadReg, ha, checked]

theorem aluBinary_eq (o : Op) (f : Byte → Byte → Byte) (a b : Byte) (s : State) :
    aluBinary o f a b s = finish o s (checked (firstBadReg [a, b]) (s.aluWrite f a b)) :=
  congrArg (finish o s) (withRegs_eq_checked rfl)

/-- Every instruction is its operand check followed by its effect. -/
theorem exec_eq (i : Instr) (s : State) :
    exec i s = finish i.op s (checked (badOperand s.flagE i) (effect i s)) := by
  cases i with
  | hlt => rfl
  | ret => simp only [exec, execRet, pop_eq]; rfl
  | add a b => exact aluBinary_eq ..
  | sub a b => exact aluBinary_eq ..
  | mul a b => exact aluBinary_eq ..
  | and a b => exact aluBinary_eq ..
  | or a b => exact aluBinary_eq ..
  | xor a b => exact aluBinary_eq ..
  | cmp a b => exact congrArg (finish _ s) (withRegs_eq_checked rfl)
  | ldi a b => exact congrArg (finish _ s) (withReg_eq_checked rfl)
  | prn a => exact congrArg (finish _ s) (withReg_eq_checked rfl)
  | not a => exact congrArg (finish _ s) (withReg_eq_checked rfl)
  | jmp a => exact congrArg (finish _ s) (withReg_eq_checked rfl)
  | push a => exact congrArg (finish _ s) (withReg_eq_checked (push_eq _ s))
  | pop a => exact congrArg (finish _ s) (withReg_eq_checked (by rw [pop_eq]; rfl))
  | call a => exact congrArg (finish _ s) (withReg_eq_checked (by rw [push_eq]; rfl))
  | jeq a =>
    refine congrArg (finish _ s) ?_
    cases he : s.flagE with
    | true => exact withReg_eq_checked (by simp [effect, he])
    | false => simp [branchRule_not_taken, effect, he, badOperand, checked]
  | jne a =>
    refine congrArg (finish _ s) ?_
    cases he : s.flagE with
    | true => simp [branchRule_not_taken, effect, he, badOperand, checked]
    | false => exact withReg_eq_checked (by simp [effect, he])

theorem exec_of_badOperand {i : Instr} {s : State} {b : Byte} (h : badOperand s.flagE i = some b) :
    exec i s = .next (s.raise (.addressError .register b.toNat)) := by
  rw [exec_eq, h]
  rfl

theorem exec_of_no_badOperand {i : Instr} {s : State} (h : badOperand s.flagE i = none) :
    exec i s = .next (advance (opcodeOf i.op) (effect i s)) := by
  rw [exec_eq, h]
  rfl

/-- What an instruction that answers a next state did: it raised in the state it began in, or it completed. -/
theorem exec_cases {i : Instr} {s t : State} (h : exec i s = .next t) :
    (∃ b, badOperand s.flagE i = some b ∧ t = s.raise (.addressError .register b.toNat)) ∨
    (badOperand s.flagE i = none ∧ t = advance (opcodeOf i.op) (effect i s)) := by
  cases hb : badOperand s.flagE i with
  | some b => exact .inl ⟨b, rfl, by simpa [exec_of_badOperand hb] using h.symm⟩
  | none => exact .inr ⟨rfl, by simpa [exec_of_no_badOperand hb] using h.symm⟩

/-! ### The pc advance and the effects, field by field -/

@[simp] theorem advance_x (opcode : Byte) (s : State) : (advance opcode s).x = s.x := by rw [advance_eq]; rfl
@[simp] theorem advance_fl (opcode : Byte) (s : State) : (advance opcode s).fl = s.fl := by rw [advance_eq]; rfl
@[simp] theorem advance_running (opcode : Byte) (s : State) : (advance opcode s).running = s.running := by
  rw [advance_eq]; rfl
@[simp] theorem advance_hc (opcode : Byte) (s : State) : (advance opcode s).hc = s.hc := by rw [advance_eq]; rfl
@[simp] theorem advance_out (opcode : Byte) (s : State) : (advance opcode s).out = s.out := by rw [advance_eq]; rfl

theorem effect_fl_of_ne_cmp {i : Instr} (h : ∀ a b, i ≠ .cmp a b) (s : State) : (effect i s).fl = s.fl := by
  cases i with
  | cmp a b => exact absurd rfl (h a b)
  | _ => rfl

theorem effect_out_of_ne_prn {i : Instr} (h : ∀ a, i ≠ .prn a) (s : State) : (effect i s).out = s.out := by
  cases i with
  | prn a => exact absurd rfl (h a)
  | _ => rfl

/-- No effect on the registers reads FL. -/
theorem effect_x_withFl (i : Instr) (s : State) (f : Byte) : (effect i { s with fl := f }).x = (effect i s).x := by
  cases i <;> rfl

/-- FL decides an operand check only in the conditional branches, which write no register. -/
theorem badOperand_ignores_flag_or_effect_keeps_x (i : Instr) :
    (∀ e e', badOperand e i = badOperand e' i) ∨ (∀ s, (effect i s).x = s.x) := by
  cases i with
  | jeq a => exact .inr fun _ => rfl
  | jne a => exact .inr fun _ => rfl
  | _ => exact .inl fun _ _ => rfl

theorem equalFlag_eq_zero_or_one (v w : Byte) : equalFlag v w = 0x00 ∨ equalFlag v w = 0x01 := by
  by_cases h : v = w
  · exact .inr (h ▸ equalFlag_self v)
  · exact .inl (equalFlag_of_ne h)

/-! ### What executing an instruction leaves of FL, the output stream and the registers -/

/-- Only a CMP that completes changes FL (10_state.md R27). -/
theorem exec_fl {i : Instr} {s t : State} (h : exec i s = .next t) :
    t.fl = s.fl ∨
    ((∃ a b, i = .cmp a b) ∧ t.running = s.running ∧ t.hc = s.hc ∧ (t.fl = 0x00 ∨ t.fl = 0x01)) := by
  obtain ⟨b, -, rfl⟩ | ⟨-, rfl⟩ := exec_cases h
  · exact .inl rfl
  · by_cases hi : ∃ a b, i = .cmp a b
    · obtain ⟨a, b, rfl⟩ := hi
      refine .inr ⟨⟨a, b, rfl⟩, ?_⟩
      simpa [effect] using equalFlag_eq_zero_or_one (s.reg (regIndex a)) (s.reg (regIndex b))
    · refine .inl ?_
      rw [advance_fl, effect_fl_of_ne_cmp fun a b hab => hi ⟨a, b, hab⟩]

/-- A PRN of an existing register appends its value (40_hlt_ldi_prn.md R102). -/
theorem exec_prn_out {a : Byte} (ha : a.toNat < 8) {s t : State} (h : exec (.prn a) s = .next t) :
    t.out = s.out ++ [s.reg ⟨a.toNat, ha⟩] := by
  have hbad : badOperand s.flagE (.prn a) = none := by simp [badOperand, Instr.regOperands, firstBadReg, ha]
  rw [exec_of_no_badOperand hbad, Host.Outcome.next.injEq] at h
  simp [← h, effect, regIndex_of_lt ha]

/-- Only a PRN of an existing register changes the output stream (10_state.md R31). -/
theorem exec_out {i : Instr} {s t : State} (h : exec i s = .next t) :
    t.out = s.out ∨ ∃ a, i = .prn a ∧ a.toNat < 8 := by
  obtain ⟨b, -, rfl⟩ | ⟨hbad, rfl⟩ := exec_cases h
  · exact .inl rfl
  · by_cases hi : ∃ a, i = .prn a
    · obtain ⟨a, rfl⟩ := hi
      exact .inr ⟨a, rfl, by simpa [badOperand, Instr.regOperands, firstBadReg] using hbad⟩
    · refine .inl ?_
      rw [advance_out, effect_out_of_ne_prn fun a ha => hi ⟨a, ha⟩]

theorem exec_x_of_effect_keeps_x {i : Instr} (hx : ∀ s, (effect i s).x = s.x) {s t : State}
    (h : exec i s = .next t) : t.x = s.x := by
  obtain ⟨b, -, rfl⟩ | ⟨-, rfl⟩ := exec_cases h
  · rfl
  · rw [advance_x, hx]

/-- The registers after an instruction do not depend on FL (10_state.md R27). -/
theorem exec_x_withFl {i : Instr} {s t u : State} {f : Byte} (h : exec i s = .next t)
    (h' : exec i { s with fl := f } = .next u) : t.x = u.x := by
  obtain hflag | hx := badOperand_ignores_flag_or_effect_keeps_x i
  · obtain ⟨b, hb, rfl⟩ | ⟨hb, rfl⟩ := exec_cases h
    · rw [exec_of_badOperand ((hflag _ _).trans hb), Host.Outcome.next.injEq] at h'
      rw [← h']; rfl
    · rw [exec_of_no_badOperand ((hflag _ _).trans hb), Host.Outcome.next.injEq] at h'
      rw [← h', advance_x, advance_x]
      exact (effect_x_withFl i s f).symm
  · rw [exec_x_of_effect_keeps_x hx h, exec_x_of_effect_keeps_x hx h']

/-! ### The step, Running and Loaded in one -/

/-- A step is one cycle of the started core; starting a Running core changes nothing. -/
theorem cycle_start_of_step {s t : State} (h : step s = .next t) : cycle s.start = .next t := by
  obtain ⟨hr, hc⟩ | ⟨-, -, hc⟩ := step_cases h
  · have hs : s.start = s := by rw [State.start, ← hr]
    rwa [hs]
  · exact hc

/-- What a step that answers a next state did: it raised before any instruction ran, leaving FL and the output stream,
or it executed the instruction in its window with that window latched. -/
theorem step_raise_or_exec {s t : State} (h : step s = .next t) :
    (∃ (u : State) (e : FatalError), t = u.raise e ∧ u.fl = s.fl ∧ u.out = s.out ∧
      (s.pc.toNat ≤ 253 → ∀ i, windowInstr s ≠ .instr i)) ∨
    (s.pc.toNat ≤ 253 ∧ ∃ i, windowInstr s = .instr i ∧ exec i s.start.latched = .next t) := by
  have hc := cycle_start_of_step h
  obtain ⟨hpc, b0, b1, hf⟩ | ⟨hpc, ⟨hl, hu⟩ | ⟨i, hi, he⟩⟩ := cycle_cases s.start
  · rw [hf, Host.Outcome.next.injEq] at hc
    exact .inl ⟨_, _, hc.symm, rfl, rfl, fun hle => absurd (hpc.trans hle) (by decide)⟩
  · rw [hu, Host.Outcome.next.injEq] at hc
    have hw : windowInstr s = .unknownInstruction _ := decode_of_lookup_none _ _ hl
    exact .inl ⟨_, _, hc.symm, rfl, rfl, fun _ i hi => by rw [hw] at hi; cases hi⟩
  · exact .inr ⟨hpc, i, hi, he ▸ hc⟩

/-- A step at a window that holds an instruction executes it. -/
theorem exec_of_step {s t : State} {i : Instr} (hpc : s.pc.toNat ≤ 253) (hw : windowInstr s = .instr i)
    (h : step s = .next t) : exec i s.start.latched = .next t := by
  obtain ⟨u, e, -, -, -, hno⟩ | ⟨-, j, hj, he⟩ := step_raise_or_exec h
  · exact absurd hw (hno hpc i)
  · rw [hw, Decoded.instr.injEq] at hj
    rwa [hj]

theorem step_fl {s t : State} (h : step s = .next t) :
    t.fl = s.fl ∨ ((∃ a b, windowInstr s = .instr (.cmp a b)) ∧ s.pc.toNat ≤ 253 ∧ t.running = true ∧
      t.hc = s.hc ∧ (t.fl = 0x00 ∨ t.fl = 0x01)) := by
  obtain ⟨u, e, rfl, hfl, -, -⟩ | ⟨hpc, i, hw, he⟩ := step_raise_or_exec h
  · exact .inl hfl
  · obtain hfl | ⟨⟨a, b, rfl⟩, hrun, hhc, hfl⟩ := exec_fl he
    · exact .inl hfl
    · exact .inr ⟨⟨a, b, hw⟩, hpc, hrun, hhc, hfl⟩

theorem step_prn_out {s t : State} {a : Byte} (ha : a.toNat < 8) (hpc : s.pc.toNat ≤ 253)
    (hw : windowInstr s = .instr (.prn a)) (h : step s = .next t) : t.out = s.out ++ [s.reg ⟨a.toNat, ha⟩] := by
  simpa using exec_prn_out ha (exec_of_step hpc hw h)

theorem step_out {s t : State} (h : step s = .next t) :
    t.out = s.out ∨ (∃ (a : Byte) (ha : a.toNat < 8), s.pc.toNat ≤ 253 ∧ windowInstr s = .instr (.prn a) ∧
      t.out = s.out ++ [s.reg ⟨a.toNat, ha⟩]) := by
  obtain ⟨u, e, rfl, -, hout, -⟩ | ⟨hpc, i, hw, he⟩ := step_raise_or_exec h
  · exact .inl hout
  · obtain hout | ⟨a, rfl, ha⟩ := exec_out he
    · exact .inl hout
    · exact .inr ⟨a, ha, hpc, hw, step_prn_out ha hpc hw h⟩

/-- Bits 7:1 of FL stay 0 over every step (10_state.md R27). -/
theorem step_keeps_reserved_fl_bits {s t : State} (h : step s = .next t) (hs : s.fl.extractLsb' 1 7 = 0) :
    t.fl.extractLsb' 1 7 = 0 := by
  obtain hfl | ⟨-, -, -, -, hfl | hfl⟩ := step_fl h
  · rw [hfl, hs]
  · rw [hfl]; decide
  · rw [hfl]; decide

/-! ### The obligations -/

/-- Settles O37: from what a step does to FL (`step_fl`) and from `exec_x_withFl`. -/
theorem onlyCmpWritesFlagRegister : Obligations.OnlyCmpWritesFlagRegister :=
  ⟨fun _ _ => step_fl, State.raise_fl, fun _ _ => step_keeps_reserved_fl_bits, fun _ _ _ _ _ => exec_x_withFl⟩

/-- Settles O38: from what a step does to the output stream (`step_out`), and a fetched PRN appends (`step_prn_out`). -/
theorem onlyPrnAppendsOutput : Obligations.OnlyPrnAppendsOutput :=
  ⟨State.emit_out, fun _ _ => step_out, fun _ _ _ => step_prn_out⟩

/-- Settles O48: nothing is listed in memory after reset, and an unlisted address reads as 0x00 (`Memory.read_nil`). -/
theorem resetMemoryAndStackPointer : Obligations.ResetMemoryAndStackPointer :=
  fun _ => ⟨fun addr _ => Memory.read_nil addr, rfl⟩

end Sys2Proof.Machine
end

section
/-!
PROOFS. Memory access (20_memory.md): a read inside the array answers its byte, a read outside raises.
-/

namespace Sys2Proof.Machine

/-- The record an AddressError leaves in HC keeps the kind and the index as they are (60_exceptions.md R152). -/
@[simp] theorem record_addressError (pc : PcWord) (kind : AddrKind) (index : Nat) :
    (FatalError.addressError kind index).record pc = .addressError kind index pc := rfl

/-- Settles O50: the two sides of 255/256 are `memRead_ok` and `memRead_bad`; the raise records the pc it is taken at. -/
theorem memReadNeverWraps : Obligations.MemReadNeverWraps := by
  refine ⟨fun s addr h => ?inRange, fun s addr h => ?outOfRange, fun s addr => ?recorded⟩
  case inRange => exact memRead_ok (Nat.lt_succ_of_le h)
  case outOfRange => exact memRead_bad h
  case recorded => rw [State.raise_hc, record_addressError]

end Sys2Proof.Machine
end

section
/-!
PROOFS. The encoding (30_encoding.md): what the opcode byte says of the length and of the pc (R72, R73), and that a byte
the format does not use is never examined (R80), by decode or by execution.
-/

namespace Sys2Proof.Machine

open Sys2Proof.Safety

/-! ### Length and own-PC bit of an opcode byte -/

theorem opLength_eq_shift_mask (op : Byte) : opLength op = ((op >>> 6) &&& 0b11).toNat + 1 := by
  have hmask : (op.toNat >>> 6) &&& 3 = (op.toNat >>> 6) % 2 ^ 2 := Nat.and_two_pow_sub_one_eq_mod _ 2
  simp [opLength, hmask]

theorem opOwnPc_iff_mask_ne_zero (op : Byte) : opOwnPc op = true ↔ op &&& 0b00010000 ≠ 0 := by
  have hmask : op &&& 0b00010000 = if op.getLsbD 4 then BitVec.twoPow 8 4 else 0#8 := BitVec.and_twoPow op 4
  rw [hmask, opOwnPc]
  cases op.getLsbD 4 <;> decide

theorem one_le_opLength (op : Byte) : 1 ≤ opLength op := Nat.le_add_left 1 _

theorem opLength_opcodeOf_le_three (o : Op) : opLength (opcodeOf o) ≤ 3 := by cases o <;> decide

theorem opOwnPc_opcodeOf_iff (o : Op) :
    opOwnPc (opcodeOf o) = true ↔ o ∈ [Op.call, Op.ret, Op.jmp, Op.jeq, Op.jne] := by cases o <;> decide

theorem opLength_le_three_of_lookup {op : Byte} {o : Op} (h : lookupOp op = some o) : opLength op ≤ 3 :=
  opcodeOf_of_lookup h ▸ opLength_opcodeOf_le_three o

/-- Settles O21: the two formulas hold of every byte; the table's opcodes are checked one by one, and a byte of length 4
would contradict `opLength_le_three_of_lookup`. -/
theorem lengthAndOwnPcFormulas : Obligations.LengthAndOwnPcFormulas := by
  refine ⟨fun op => ⟨opLength_eq_shift_mask op, opOwnPc_iff_mask_ne_zero op⟩, fun op o h => ?valid, fun op h => ?illegal⟩
  case valid =>
    exact ⟨one_le_opLength op, opLength_le_three_of_lookup h, opcodeOf_of_lookup h ▸ opOwnPc_opcodeOf_iff o⟩
  case illegal =>
    refine Option.eq_none_iff_forall_ne_some.2 fun o ho => ?_
    have hle := opLength_le_three_of_lookup ho
    omega

/-! ### Decode drops the bytes a format does not use -/

theorem instrOf_ignores_opb {o : Op} (h : opLength (opcodeOf o) ≤ 2) (a b b' : Byte) :
    instrOf a b o = instrOf a b' o := by
  cases o with
  | ldi | add | sub | mul | cmp | and | or | xor => exact absurd h (by decide)
  | _ => rfl

theorem instrOf_ignores_operands {o : Op} (h : opLength (opcodeOf o) = 1) (a a' b b' : Byte) :
    instrOf a b o = instrOf a' b' o := by
  cases o with
  | hlt | ret => rfl
  | _ => exact absurd h (by decide)

/-- Decode reads the operand bytes only through `instrOf`. -/
theorem decode_congr {op a a' b b' : Byte} (h : ∀ o, opcodeOf o = op → instrOf a b o = instrOf a' b' o) :
    decode op a b = decode op a' b' := by
  cases hl : lookupOp op with
  | none => rw [decode_of_lookup_none _ _ hl, decode_of_lookup_none _ _ hl]
  | some o => rw [decode_of_lookup _ _ hl, decode_of_lookup _ _ hl, h o (opcodeOf_of_lookup hl)]

/-! ### Execution examines no latch -/

/-- The state with other bytes in the fetch latches (10_state.md R32). -/
def State.withLatches (s : State) (r a b : Byte) : State := { s with ir := r, opa := a, opb := b }

theorem State.raise_withLatches (s : State) (r a b : Byte) (e : FatalError) :
    (s.withLatches r a b).raise e = (s.raise e).withLatches r a b := rfl

theorem advance_withLatches (opcode : Byte) (s : State) (r a b : Byte) :
    advance opcode (s.withLatches r a b) = (advance opcode s).withLatches r a b := by
  rw [advance_eq, advance_eq]; rfl

theorem effect_withLatches (i : Instr) (s : State) (r a b : Byte) :
    effect i (s.withLatches r a b) = (effect i s).withLatches r a b := by
  cases i <;> rfl

/-- Every instruction answers a next state, and other bytes in the latches change that state in its latches
alone. -/
theorem exec_withLatches (i : Instr) (s : State) (r a b : Byte) :
    ∃ t, exec i s = .next t ∧ exec i (s.withLatches r a b) = .next (t.withLatches r a b) := by
  have hflag : (s.withLatches r a b).flagE = s.flagE := rfl
  cases hbad : badOperand s.flagE i with
  | some c =>
    exact ⟨_, exec_of_badOperand hbad, by rw [exec_of_badOperand (hflag ▸ hbad), State.raise_withLatches]⟩
  | none =>
    exact ⟨_, exec_of_no_badOperand hbad,
      by rw [exec_of_no_badOperand (hflag ▸ hbad), effect_withLatches, advance_withLatches]⟩

/-- Settles O24: the window is latched (`fetch_ok`), decode drops the bytes outside the format, and execution commutes with
a change of the latches (`exec_withLatches`). -/
theorem unusedOperandBytesIgnored : Obligations.UnusedOperandBytesIgnored :=
  ⟨fun _ => fetch_ok,
    fun _ a b b' h => decode_congr fun _ ho => instrOf_ignores_opb (ho ▸ h) a b b',
    fun _ a a' b b' h => decode_congr fun _ ho => instrOf_ignores_operands (ho ▸ h) a a' b b',
    exec_withLatches⟩

end Sys2Proof.Machine
end

section
/-!
PROOFS. Single-stepping and running (30_encoding.md R86). The two differ only in the Loaded state, where a step starts the
core and a turn of the run loop does not; no cycle leads into that state, so they agree once the core has started.
-/

namespace Sys2Proof.Machine

/-! ### No cycle leads into the Loaded state -/

theorem FatalError.record_ne_none (pc : PcWord) (e : FatalError) : e.record pc ≠ .none := by
  cases e <;> exact HaltCause.noConfusion

namespace State

theorem isLoaded_iff {s : State} : s.isLoaded = true ↔ s.running = false ∧ s.hc = .none := by simp [isLoaded]

theorem isLoaded_of_running {s : State} (h : s.running = true) : s.isLoaded = false := by simp [isLoaded, h]

theorem isLoaded_of_hc {s : State} (h : s.hc ≠ .none) : s.isLoaded = false := by simp [isLoaded, h]

@[simp] theorem isLoaded_start (s : State) : s.start.isLoaded = false := isLoaded_of_running s.start_running

@[simp] theorem isLoaded_raise (s : State) (e : FatalError) : (s.raise e).isLoaded = false :=
  isLoaded_of_hc (e.record_ne_none s.pc)

/-- A core that is neither Running nor Loaded has a halt cause. -/
theorem hc_ne_none_of_not_running {s : State} (hs : s.isLoaded = false) (hr : s.running = false) : s.hc ≠ .none := by
  simpa [isLoaded, hr] using hs

end State

theorem isLoaded_advance (opcode : Byte) (s : State) : (advance opcode s).isLoaded = s.isLoaded := by
  simp [State.isLoaded]

theorem effect_not_loaded (i : Instr) {s : State} (hs : s.isLoaded = false) : (effect i s).isLoaded = false := by
  cases i with
  | hlt => rfl
  | _ => exact hs

theorem finish_next (o : Op) (s : State) (r : Except FatalError State) : ∃ t, finish o s r = .next t := by
  cases r <;> exact ⟨_, rfl⟩

/-- No instruction faults or is refused: a fatal error is a next state too (60_exceptions.md R154). -/
theorem exec_next (i : Instr) (s : State) : ∃ t, exec i s = .next t := exec_eq i s ▸ finish_next ..

theorem exec_not_loaded {i : Instr} {s t : State} (hs : s.isLoaded = false) (h : exec i s = .next t) :
    t.isLoaded = false := by
  obtain ⟨b, -, rfl⟩ | ⟨-, rfl⟩ := exec_cases h
  · exact s.isLoaded_raise _
  · rw [isLoaded_advance, effect_not_loaded i hs]

/-- A cycle always answers a next state, and from a core that is not Loaded that state is not Loaded. -/
theorem cycle_not_loaded {s : State} (hs : s.isLoaded = false) : ∃ t, cycle s = .next t ∧ t.isLoaded = false := by
  obtain ⟨-, b0, b1, hf⟩ | ⟨-, ⟨-, hu⟩ | ⟨i, -, he⟩⟩ := cycle_cases s
  · exact ⟨_, hf, State.isLoaded_raise _ _⟩
  · exact ⟨_, hu, State.isLoaded_raise _ _⟩
  · obtain ⟨t, ht⟩ := exec_next i s.latched
    exact ⟨t, he.trans ht, exec_not_loaded (s := s.latched) hs ht⟩

/-! ### The host's step and run -/

namespace State

theorem hostStep_of_step {s t : State} (h : step s = .next t) : s.hostStep = t := by rw [hostStep, h]

theorem hostStep_of_halted {s : State} (hr : s.running = false) (hc : s.hc ≠ .none) : s.hostStep = s := by
  rw [hostStep, step_of_halted hr hc]

/-- A step of a Loaded core is the step of the started core (70_reset_and_hazards.md R184). -/
theorem hostStep_of_loaded {s : State} (h : s.isLoaded = true) : s.hostStep = s.start.hostStep := by
  obtain ⟨hr, hc⟩ := isLoaded_iff.1 h
  obtain ⟨t, hcyc, -⟩ := cycle_not_loaded s.isLoaded_start
  rw [hostStep_of_step ((step_of_loaded hr hc).trans hcyc),
    hostStep_of_step ((step_of_running s.start_running).trans hcyc)]

theorem hostSteps_of_halted {s : State} (hr : s.running = false) (hc : s.hc ≠ .none) (n : Nat) : s.hostSteps n = s := by
  induction n with
  | zero => rfl
  | succ n ih => rw [hostSteps, hostStep_of_halted hr hc, ih]

theorem runLoop_of_not_running {s : State} (hr : s.running = false) (n : Nat) : s.runLoop n = s := by
  cases n <;> simp [runLoop, hr]

theorem runLoop_succ_of_cycle {s t : State} (hr : s.running = true) (h : cycle s = .next t) (n : Nat) :
    s.runLoop (n + 1) = t.runLoop n := by
  simp [runLoop, hr, h]

/-- From a core that has started, turns of the run loop are calls of `step()`. -/
theorem runLoop_eq_hostSteps {s : State} (hs : s.isLoaded = false) (n : Nat) : s.runLoop n = s.hostSteps n := by
  induction n generalizing s with
  | zero => rfl
  | succ n ih =>
    cases hr : s.running with
    | true =>
      obtain ⟨t, hcyc, ht⟩ := cycle_not_loaded hs
      rw [runLoop_succ_of_cycle hr hcyc, hostSteps, hostStep_of_step ((step_of_running hr).trans hcyc), ih ht]
    | false =>
      rw [runLoop_of_not_running hr, hostSteps_of_halted hr (hc_ne_none_of_not_running hs hr)]

theorem hostRun_succ_eq_hostSteps (s : State) (n : Nat) : s.hostRun (n + 1) = s.hostSteps (n + 1) := by
  cases hs : s.isLoaded with
  | true =>
    calc s.hostRun (n + 1)
        = s.start.runLoop (n + 1) := by rw [hostRun, if_pos hs]
      _ = s.start.hostSteps (n + 1) := runLoop_eq_hostSteps s.isLoaded_start (n + 1)
      _ = s.hostSteps (n + 1) := by rw [hostSteps, hostSteps, hostStep_of_loaded hs]
  | false => rw [hostRun, hs, if_neg Bool.false_ne_true, runLoop_eq_hostSteps hs]

end State

/-- Settles O47: a Running core's step is its cycle, and run is repeated `step()` (`hostRun_succ_eq_hostSteps`). -/
theorem singleSteppingEqualsRunning : Obligations.SingleSteppingEqualsRunning := by
  refine ⟨fun s t hr hcyc => ?_, State.hostRun_succ_eq_hostSteps⟩
  have hstep : step s = .next t := (step_of_running hr).trans hcyc
  exact ⟨hstep, State.hostStep_of_step hstep⟩

end Sys2Proof.Machine
end

section
/-!
PROOFS. The clauses the instruction rules share: the encoding of every row of the opcode table, the pc advance of an opcode
that leaves the pc to it, and the operand check of a one-register rule; then PRN (40_hlt_ldi_prn.md).
-/

namespace Sys2Proof.Machine

open Sys2Proof.Safety

/-! ### The clauses the instruction rules share -/

/-- Every operation is encoded by its own row of the opcode table (30_encoding.md R77). -/
theorem encodedAs_opcodeOf (o : Op) :
    EncodedAs (opcodeOf o) (fun a b => instrOf a b o) (opLength (opcodeOf o)) (opOwnPc (opcodeOf o)) :=
  ⟨fun a b => decode_of_lookup a b (lookupOp_opcodeOf o), rfl, rfl⟩

theorem advance_of_not_ownPc {opcode : Byte} (h : opOwnPc opcode = false) (s : State) :
    advance opcode s = s.setPc (s.pc + BitVec.ofNat 9 (opLength opcode)) := by
  rw [advance_eq, h, if_neg Bool.false_ne_true]

theorem firstBadReg_singleton_of_lt {a : Byte} (h : a.toNat < 8) : firstBadReg [a] = none := if_pos h

theorem firstBadReg_singleton_of_gt {a : Byte} (h : 7 < a.toNat) : firstBadReg [a] = some a := if_neg (Nat.not_lt.2 h)

/-- An instruction whose only register operand is `a` raises with it (10_state.md R23). -/
theorem checksA_of_badOperand {mk : Byte → Instr} (h : ∀ e a, badOperand e (mk a) = firstBadReg [a]) : ChecksA mk :=
  fun _ a ha => exec_of_badOperand ((h _ a).trans (firstBadReg_singleton_of_gt ha))

/-! ### PRN -/

theorem badOperand_prn (e : Bool) (a : Byte) : badOperand e (.prn a) = firstBadReg [a] := rfl

/-- The whole next state of a PRN of an existing register (40_hlt_ldi_prn.md R102). -/
theorem exec_prn {a : Byte} (ha : a.toNat < 8) (s : State) :
    exec (.prn a) s = .next { s with out := s.out ++ [s.reg ⟨a.toNat, ha⟩], pc := s.pc + 2 } := by
  have hbad : badOperand s.flagE (.prn a) = none := (badOperand_prn _ a).trans (firstBadReg_singleton_of_lt ha)
  have hadv : ∀ t, advance (opcodeOf .prn) t = t.setPc (t.pc + 2) := advance_of_not_ownPc opOwnPc_prn
  rw [exec_of_no_badOperand hbad, Instr.op, hadv, effect, regIndex_of_lt ha]
  rfl

/-- Settles O3: the row of PRN in the opcode table, its next state (`exec_prn`), its operand check, and the digits of 0xFF
by evaluation. -/
theorem prnAppendsRegister : Obligations.PrnAppendsRegister := by
  refine ⟨?encoded, fun s a ha => exec_prn ha s, checksA_of_badOperand badOperand_prn, State.raise_out, ?digits⟩
  case encoded => exact encodedAs_opcodeOf .prn
  case digits => decide

end Sys2Proof.Machine
end

section
/-!
PROOFS. The ALU rules (41_alu.md): the operand checks of a two-register rule, the next state of an instruction that leaves
the pc to the advance, the shape shared by the six rules that write `x[a]`, and the value each of them computes.
-/

namespace Sys2Proof.Machine

open Sys2Proof.Safety

/-! ### The operand checks of a two-register rule -/

theorem firstBadReg_pair_of_lt {a b : Byte} (ha : a.toNat < 8) (hb : b.toNat < 8) : firstBadReg [a, b] = none :=
  (if_pos ha).trans (firstBadReg_singleton_of_lt hb)

theorem firstBadReg_pair_of_gt_left {a : Byte} (ha : 7 < a.toNat) (b : Byte) : firstBadReg [a, b] = some a :=
  if_neg (Nat.not_lt.2 ha)

theorem firstBadReg_pair_of_gt_right {a b : Byte} (ha : a.toNat ≤ 7) (hb : 7 < b.toNat) : firstBadReg [a, b] = some b :=
  (if_pos (Nat.lt_succ_of_le ha)).trans (firstBadReg_singleton_of_gt hb)

/-- An instruction whose register operands are `a` and `b` checks `a` first (60_exceptions.md R157). -/
theorem checksAB_of_badOperand {mk : Byte → Byte → Instr} (h : ∀ e a b, badOperand e (mk a b) = firstBadReg [a, b]) :
    ChecksAB mk := fun _ a b =>
  ⟨fun ha => exec_of_badOperand ((h _ a b).trans (firstBadReg_pair_of_gt_left ha b)),
    fun ha hb => exec_of_badOperand ((h _ a b).trans (firstBadReg_pair_of_gt_right ha hb))⟩

/-! ### The next state -/

/-- An instruction with legal operands that leaves the pc to the advance completes with its effect and its length added to
pc (30_encoding.md R84). -/
theorem exec_of_not_ownPc {i : Instr} {s : State} {n : Nat} (hbad : badOperand s.flagE i = none)
    (hpc : opOwnPc (opcodeOf i.op) = false) (hlen : opLength (opcodeOf i.op) = n) :
    exec i s = .next ((effect i s).setPc ((effect i s).pc + BitVec.ofNat 9 n)) := by
  rw [exec_of_no_badOperand hbad, advance_of_not_ownPc hpc, hlen]

/-- An operation that computes `x[a] <- f(x[a], x[b])` follows its ALU rule when `f` computes what the rule says. -/
theorem aluRule_of_aluWrite {o : Op} {f : Byte → Byte → Byte} {result : Byte → Byte → Byte → Prop}
    (hbad : ∀ e a b, badOperand e (instrOf a b o) = firstBadReg [a, b])
    (heff : ∀ a b s, effect (instrOf a b o) s = s.aluWrite f a b)
    (hpc : opOwnPc (opcodeOf o) = false) (hlen : opLength (opcodeOf o) = 3)
    (hresult : ∀ v w, result v w (f v w)) :
    AluRule (opcodeOf o) (fun a b => instrOf a b o) result := by
  refine ⟨?encoded, fun s a b ha hb => ⟨_, hresult _ _, ?next⟩, checksAB_of_badOperand hbad⟩
  case encoded => exact hlen ▸ hpc ▸ encodedAs_opcodeOf o
  case next =>
    have hlegal : badOperand s.flagE (instrOf a b o) = none := (hbad _ a b).trans (firstBadReg_pair_of_lt ha hb)
    rw [← op_instrOf a b o] at hpc hlen
    rw [exec_of_not_ownPc hlegal hpc hlen, heff, State.aluWrite, regIndex_of_lt ha, regIndex_of_lt hb]
    rfl

/-- The whole next state of a CMP of existing registers (41_alu.md R114). -/
theorem exec_cmp {a b : Byte} (ha : a.toNat < 8) (hb : b.toNat < 8) (s : State) :
    exec (.cmp a b) s =
      .next { s with fl := equalFlag (s.reg ⟨a.toNat, ha⟩) (s.reg ⟨b.toNat, hb⟩), pc := s.pc + 3 } := by
  rw [exec_of_not_ownPc (i := .cmp a b) (firstBadReg_pair_of_lt ha hb) opOwnPc_cmp opLength_cmp, effect,
    regIndex_of_lt ha, regIndex_of_lt hb]
  rfl

/-- The whole next state of a NOT of an existing register (41_alu.md R118). -/
theorem exec_not {a : Byte} (ha : a.toNat < 8) (s : State) :
    exec (.not a) s = .next { s with x := s.x.set a.toNat (~~~ s.reg ⟨a.toNat, ha⟩), pc := s.pc + 2 } := by
  rw [exec_of_not_ownPc (i := .not a) (firstBadReg_singleton_of_lt ha) opOwnPc_not opLength_not, effect,
    regIndex_of_lt ha]
  rfl

/-! ### The values computed -/

theorem aluAdd_toNat (v w : Byte) : (aluAdd v w).toNat = (v.toNat + w.toNat) % 256 := by
  rw [aluAdd, BitVec.toNat_ofNat, Nat.mod_mod]

theorem aluMul_toNat (v w : Byte) : (aluMul v w).toNat = (v.toNat * w.toNat) % 256 := by
  rw [aluMul, BitVec.toNat_ofNat, Nat.mod_mod]

/-- The remainder is the non-negative one, so a difference below 0 wraps to 256 plus it. -/
theorem aluSub_toNat (v w : Byte) : ((aluSub v w).toNat : Int) = ((v.toNat : Int) - (w.toNat : Int)) % 256 := by
  have hnonneg : 0 ≤ ((v.toNat : Int) - (w.toNat : Int)) % 256 := Int.emod_nonneg _ (by decide)
  calc ((aluSub v w).toNat : Int)
      = ((((v.toNat : Int) - (w.toNat : Int)) % 256 % 256).toNat : Int) := by rw [aluSub, BitVec.toNat_ofInt]; rfl
    _ = ((v.toNat : Int) - (w.toNat : Int)) % 256 := by rw [Int.emod_emod, Int.toNat_of_nonneg hnonneg]

/-! ### The obligations -/

/-- Settles O4: the shared shape of the ALU rules with the value of `aluAdd_toNat`. -/
theorem addWrapsModulo256 : Obligations.AddWrapsModulo256 :=
  aluRule_of_aluWrite (o := .add) (fun _ _ _ => rfl) (fun _ _ _ => rfl) opOwnPc_add opLength_add aluAdd_toNat

/-- Settles O5: the shared shape of the ALU rules with the value of `aluSub_toNat`. -/
theorem subWrapsModulo256 : Obligations.SubWrapsModulo256 :=
  aluRule_of_aluWrite (o := .sub) (fun _ _ _ => rfl) (fun _ _ _ => rfl) opOwnPc_sub opLength_sub aluSub_toNat

/-- Settles O6: the shared shape of the ALU rules with the value of `aluMul_toNat`. -/
theorem mulKeepsLowByte : Obligations.MulKeepsLowByte :=
  aluRule_of_aluWrite (o := .mul) (fun _ _ _ => rfl) (fun _ _ _ => rfl) opOwnPc_mul opLength_mul aluMul_toNat

/-- Settles O7: the row of CMP in the opcode table, its next state (`exec_cmp`) with the two values of `equalFlag`, its
operand checks, and `raise`, which keeps FL. -/
theorem cmpWritesEqualFlag : Obligations.CmpWritesEqualFlag := by
  refine ⟨?encoded, fun s a b ha hb => ⟨_, exec_cmp ha hb s, ?equal, equalFlag_of_ne⟩,
    checksAB_of_badOperand fun _ _ _ => rfl, State.raise_fl⟩
  case encoded => exact encodedAs_opcodeOf .cmp
  case equal =>
    intro heq
    rw [heq, equalFlag_self]

/-- Settles O8: the shared shape of the ALU rules; AND is the bit vectors' own. -/
theorem andIsBitwise : Obligations.AndIsBitwise :=
  aluRule_of_aluWrite (o := .and) (fun _ _ _ => rfl) (fun _ _ _ => rfl) opOwnPc_and opLength_and
    fun _ _ _ _ => BitVec.getLsbD_and

/-- Settles O9: the shared shape of the ALU rules; OR is the bit vectors' own. -/
theorem orIsBitwise : Obligations.OrIsBitwise :=
  aluRule_of_aluWrite (o := .or) (fun _ _ _ => rfl) (fun _ _ _ => rfl) opOwnPc_or opLength_or
    fun _ _ _ _ => BitVec.getLsbD_or

/-- Settles O10: the shared shape of the ALU rules; XOR is the bit vectors' own. -/
theorem xorIsBitwise : Obligations.XorIsBitwise :=
  aluRule_of_aluWrite (o := .xor) (fun _ _ _ => rfl) (fun _ _ _ => rfl) opOwnPc_xor opLength_xor
    fun _ _ _ _ => BitVec.getLsbD_xor

/-- Settles O11: the row of NOT in the opcode table, its next state (`exec_not`) and its operand check; the complement of a
byte is its difference from 255. -/
theorem notComplementsRegister : Obligations.NotComplementsRegister := by
  refine ⟨?encoded, fun s a ha => ⟨_, BitVec.toNat_not, exec_not ha s⟩, checksA_of_badOperand fun _ _ => rfl⟩
  case encoded => exact encodedAs_opcodeOf .not

end Sys2Proof.Machine
end

section
/-!
PROOFS. The transfers that neither branch nor push (43_control_transfer.md): the end of a rule that sets pc itself, then
RET and JMP; and that a fetch past 253 never reaches its instruction (30_encoding.md R82).
-/

namespace Sys2Proof.Machine

open Sys2Proof.Safety

/-! ### The next state -/

theorem advance_of_ownPc {opcode : Byte} (h : opOwnPc opcode = true) (s : State) : advance opcode s = s := if_pos h

/-- An instruction with legal operands that sets pc itself completes with its effect alone (30_encoding.md R84). -/
theorem exec_of_ownPc {i : Instr} {s : State} (hbad : badOperand s.flagE i = none)
    (hpc : opOwnPc (opcodeOf i.op) = true) : exec i s = .next (effect i s) := by
  rw [exec_of_no_badOperand hbad, advance_of_ownPc hpc]

/-- The whole next state of a RET (43_control_transfer.md R132). -/
theorem exec_ret (s : State) :
    exec .ret s = .next { s with x := s.x.set 7 (s.sp + 1), pc := target (s.byteAt s.sp.toNat) } :=
  exec_of_ownPc rfl opOwnPc_ret

/-- The whole next state of a JMP to an existing register's value (43_control_transfer.md R133). -/
theorem exec_jmp {a : Byte} (ha : a.toNat < 8) (s : State) :
    exec (.jmp a) s = .next (s.setPc (target (s.reg ⟨a.toNat, ha⟩))) := by
  rw [exec_of_ownPc (i := .jmp a) (firstBadReg_singleton_of_lt ha) opOwnPc_jmp, effect, regIndex_of_lt ha]

theorem State.setPc_self (s : State) : s.setPc s.pc = s := rfl

/-! ### The fetch -/

/-- A step of a running core from 254 on raises before any instruction runs, with the first address above 255. -/
theorem step_of_running_past_top {s : State} (hr : s.running = true) (hpc : 254 ≤ s.pc.toNat) :
    ∃ b0 b1, step s =
      .next ({ s with ir := b0, opa := b1 }.raise (.addressError .memory (max 256 s.pc.toNat))) := by
  obtain ⟨-, hraise⟩ | ⟨hle, -⟩ := cycle_cases s
  · rwa [step_of_running hr]
  · exact absurd (hpc.trans hle) (by decide)

theorem topFetchFaults : TopFetchFaults := by
  intro s hr hge hle
  obtain ⟨b0, b1, hstep⟩ := step_of_running_past_top hr hge
  rw [Nat.max_eq_left hle] at hstep
  exact ⟨_, hstep, rfl, rfl⟩

/-! ### The obligations -/

/-- Settles O15: the row of RET in the opcode table, its next state (`exec_ret`) with the increment of a byte and the
zero-extension of one, and the fetch fault at the top of memory. -/
theorem retPopsProgramCounter : Obligations.RetPopsProgramCounter := by
  refine ⟨?encoded, fun s => ⟨_, _, ?wraps, target_toNat _, exec_ret s⟩, topFetchFaults⟩
  case encoded => exact encodedAs_opcodeOf .ret
  case wraps => exact BitVec.toNat_add s.sp 1

/-- Settles O16: the row of JMP in the opcode table, its next state (`exec_jmp`), which is the same state when the target
is the pc, and its operand check. -/
theorem jmpGoesToRegister : Obligations.JmpGoesToRegister := by
  refine ⟨?encoded, fun s a ha => ⟨_, target_toNat _, exec_jmp ha s, ?selfJump⟩, checksA_of_badOperand fun _ _ => rfl⟩
  case encoded => exact encodedAs_opcodeOf .jmp
  case selfJump =>
    intro hself
    rw [exec_jmp ha, hself, State.setPc_self]

end Sys2Proof.Machine
end

section
/-!
PROOFS. The two fatal errors and the snapshot (60_exceptions.md): an opcode byte outside the decode table raises, and
how many bytes that is (R151); the only error an instruction adds is a register index above 7 (R156); what `snapshot` shows
(R164, R165).
-/

namespace Sys2Proof.Machine

open Sys2Proof.Safety

/-! ### The operand an instruction reports -/

theorem firstBadReg_eq_none {bs : List Byte} (h : ∀ b ∈ bs, b.toNat < 8) : firstBadReg bs = none := by
  induction bs with
  | nil => rfl
  | cons b bs ih =>
    obtain ⟨hb, hbs⟩ := List.forall_mem_cons.1 h
    exact (if_pos hb).trans (ih hbs)

theorem gt_of_firstBadReg {bs : List Byte} {c : Byte} (h : firstBadReg bs = some c) : 7 < c.toNat := by
  induction bs with
  | nil => cases h
  | cons b bs ih =>
    by_cases hb : b.toNat < 8
    · exact ih ((if_pos hb).symm.trans h)
    · obtain rfl : b = c := Option.some.inj ((if_neg hb).symm.trans h)
      exact Nat.not_lt.1 hb

/-- The flag can only switch the check of a conditional branch off (60_exceptions.md R153). -/
theorem badOperand_eq_firstBadReg_or_none (e : Bool) (i : Instr) :
    badOperand e i = firstBadReg i.regOperands ∨ badOperand e i = none := by
  cases i with
  | jeq a => cases e with
    | true => exact .inl rfl
    | false => exact .inr rfl
  | jne a => cases e with
    | true => exact .inr rfl
    | false => exact .inl rfl
  | _ => exact .inl rfl

theorem badOperand_of_wellFormed {i : Instr} (h : i.wellFormed = true) (e : Bool) : badOperand e i = none := by
  have hlegal : ∀ b ∈ i.regOperands, b.toNat < 8 := by simpa [Instr.wellFormed] using h
  obtain hfirst | hnone := badOperand_eq_firstBadReg_or_none e i
  · rw [hfirst, firstBadReg_eq_none hlegal]
  · exact hnone

theorem gt_of_badOperand {e : Bool} {i : Instr} {b : Byte} (h : badOperand e i = some b) : 7 < b.toNat := by
  obtain hfirst | hnone := badOperand_eq_firstBadReg_or_none e i
  · exact gt_of_firstBadReg (hfirst.symm.trans h)
  · cases hnone.symm.trans h

/-! ### What executing an instruction leaves of the running flag and the halt cause -/

/-- Only HLT's effect touches the running flag or the halt cause. -/
theorem effect_status_of_ne_hlt {i : Instr} (h : i ≠ .hlt) (s : State) :
    (effect i s).running = s.running ∧ (effect i s).hc = s.hc := by
  cases i with
  | hlt => exact absurd rfl h
  | _ => exact ⟨rfl, rfl⟩

/-- An instruction leaves the halt cause, halts, or adds a register-index error (60_exceptions.md R156). -/
theorem exec_hc {i : Instr} {s t : State} (h : exec i s = .next t) :
    t.hc = s.hc ∨ t.hc = .halt s.pc ∨ ∃ n, 7 < n ∧ t.hc = .addressError .register n s.pc := by
  obtain ⟨b, hb, rfl⟩ | ⟨-, rfl⟩ := exec_cases h
  · exact .inr (.inr ⟨b.toNat, gt_of_badOperand hb, rfl⟩)
  · rw [advance_hc]
    by_cases hi : i = .hlt
    · exact .inr (.inl (hi ▸ rfl))
    · exact .inl (effect_status_of_ne_hlt hi s).2

/-- A well-formed instruction other than HLT completes and leaves the core as it was running. -/
theorem exec_status_of_wellFormed {i : Instr} (hwf : i.wellFormed = true) (hi : i ≠ .hlt) (s : State) :
    ∃ t, exec i s = .next t ∧ t.running = s.running ∧ t.hc = s.hc := by
  refine ⟨_, exec_of_no_badOperand (badOperand_of_wellFormed hwf s.flagE), ?_⟩
  rw [advance_running, advance_hc]
  exact effect_status_of_ne_hlt hi s

/-! ### The opcode bytes outside the decode table -/

theorem lookupOp_ne_none_iff {byte : Byte} : lookupOp byte ≠ none ↔ ∃ o, opcodeOf o = byte := by
  refine ⟨fun h => ?_, fun ⟨o, ho⟩ => ?_⟩
  · obtain ⟨o, ho⟩ := Option.ne_none_iff_exists'.1 h
    exact ⟨o, opcodeOf_of_lookup ho⟩
  · rw [← ho, lookupOp_opcodeOf]
    exact Option.some_ne_none o

theorem opcodeOf_injective : Function.Injective opcodeOf := fun o p h =>
  Option.some.inj (by rw [← lookupOp_opcodeOf o, h, lookupOp_opcodeOf])

theorem mem_opAll (o : Op) : o ∈ Op.all := by cases o <;> decide

/-- The valid opcode bytes are the opcodes of the instructions, each once. -/
theorem filter_valid_perm_opcodes :
    ((List.range 256).filter fun n => ¬ lookupOp (BitVec.ofNat 8 n) = none).Perm
      (Op.all.map fun o => (opcodeOf o).toNat) := by
  have hnodup : (Op.all.map fun o => (opcodeOf o).toNat).Nodup :=
    List.Nodup.map (BitVec.toNat_injective.comp opcodeOf_injective) (by decide)
  refine (List.perm_ext_iff_of_nodup (List.nodup_range.filter _) hnodup).2 fun n => ?_
  have hbyte : ∀ o, n < 256 ∧ opcodeOf o = BitVec.ofNat 8 n ↔ (opcodeOf o).toNat = n := fun o => by
    have hlt := (opcodeOf o).isLt
    rw [BitVec.toNat_eq, BitVec.toNat_ofNat]
    omega
  simp only [List.mem_filter, List.mem_range, decide_eq_true_eq, List.mem_map, mem_opAll, true_and, ← hbyte,
    exists_and_left]
  exact and_congr_right fun _ => lookupOp_ne_none_iff

/-- Every byte but the eighteen opcodes is outside the table. -/
theorem length_filter_invalid : ((List.range 256).filter fun n => lookupOp (BitVec.ofNat 8 n) = none).length = 238 := by
  have hsplit := List.length_eq_length_filter_add (l := List.range 256) fun n => lookupOp (BitVec.ofNat 8 n) = none
  have hvalid := filter_valid_perm_opcodes.length_eq
  have hops : Op.all.length = 18 := rfl
  simp only [List.length_range, List.length_map, hops, decide_not] at hsplit hvalid
  omega

/-! ### The step at an unknown opcode -/

/-- A cycle whose opcode byte is outside the table takes UnknownInstruction with that byte (60_exceptions.md R151). -/
theorem cycle_of_unknown {s : State} (hpc : s.pc.toNat ≤ 253) (hl : lookupOp (s.byteAt s.pc.toNat) = none) :
    cycle s = .next (s.latched.raise (.unknownInstruction (s.byteAt s.pc.toNat))) := by
  obtain ⟨hge, -⟩ | ⟨-, ⟨-, hu⟩ | ⟨i, hi, -⟩⟩ := cycle_cases s
  · omega
  · exact hu
  · obtain ⟨o, ho, -⟩ := decode_instr hi
    cases hl.symm.trans ho

/-- A step of a Running or a Loaded core is one cycle of the started core (70_reset_and_hazards.md R184). -/
theorem step_eq_cycle_start {s : State} (h : s.running = true ∨ s.isLoaded = true) : step s = cycle s.start := by
  obtain hr | hl := h
  · rw [step_of_running hr, State.start, ← hr]
  · obtain ⟨hr, hc⟩ := State.isLoaded_iff.1 hl
    exact step_of_loaded hr hc

/-! ### The snapshot -/

theorem observedByte_eq (s : State) (addr : Nat) :
    s.observedByte addr = if addr ≤ 255 then some (s.byteAt addr) else none :=
  if_congr Nat.lt_succ_iff rfl rfl

/-! ### The obligations -/

/-- Settles O27: a step at such a byte is the cycle of the started core (`cycle_of_unknown`), no instruction adds such a
record (`exec_hc`), and the bytes are counted against the eighteen opcodes (`length_filter_invalid`). -/
theorem unknownOpcodeIsReported : Obligations.UnknownOpcodeIsReported := by
  refine ⟨fun s hs hpc hl => ?step, fun i s t op p h ht => ?exec, length_filter_invalid, ?zero, ?ones⟩
  case step => exact ⟨_, (step_eq_cycle_start hs).trans (cycle_of_unknown (s := s.start) hpc hl), rfl, rfl, rfl⟩
  case exec =>
    obtain hsame | hhalt | ⟨n, -, hreg⟩ := exec_hc h
    · exact hsame.symm.trans ht
    · cases hhalt.symm.trans ht
    · cases hreg.symm.trans ht
  case zero => decide
  case ones => decide

/-- Settles O42: a well-formed instruction other than HLT completes (`exec_status_of_wellFormed`), and the records an
instruction can leave are those of `exec_hc`. -/
theorem arithmeticNeverFaults : Obligations.ArithmeticNeverFaults := by
  refine ⟨fun i s halu hwf => exec_status_of_wellFormed hwf ?_ s, fun i s t => exec_hc⟩
  rintro rfl
  cases halu

/-- Settles O54: the three bytes are those observed at pc, pc + 1 and pc + 2 (`observedByte_eq`); the snapshot reads no
other field. -/
theorem snapshotShowsVisibleState : Obligations.SnapshotShowsVisibleState := by
  refine ⟨fun s => ⟨rfl, rfl, rfl, rfl, fun k hk => ?bytes⟩, fun s r h o => rfl⟩
  case bytes =>
    match k with
    | 0 => exact observedByte_eq s _
    | 1 => exact observedByte_eq s _
    | 2 => exact observedByte_eq s _
    | k + 3 => exact absurd hk (Nat.not_lt.2 (Nat.le_add_left 3 k))

end Sys2Proof.Machine
end

section
/-!
PROOFS. A run may be infinite (70_reset_and_hazards.md R190): a core that has started keeps running for as long as no step
brings a halt cause, and a JMP to its own address only latches its own window, again and again.
-/

namespace Sys2Proof.Machine

open Sys2Proof.Safety

/-! ### A core that has started stays started -/

namespace State

theorem hostStep_not_loaded {s : State} (hs : s.isLoaded = false) : s.hostStep.isLoaded = false := by
  cases hr : s.running with
  | true =>
    obtain ⟨t, hcyc, ht⟩ := cycle_not_loaded hs
    rwa [hostStep_of_step ((step_of_running hr).trans hcyc)]
  | false => rwa [hostStep_of_halted hr (hc_ne_none_of_not_running hs hr)]

theorem hostSteps_not_loaded {s : State} (hs : s.isLoaded = false) (n : Nat) : (s.hostSteps n).isLoaded = false := by
  induction n generalizing s with
  | zero => exact hs
  | succ n ih => exact ih (hostStep_not_loaded hs)

/-- A core that has started and has no halt cause is Running. -/
theorem running_of_hc_none {s : State} (hs : s.isLoaded = false) (hc : s.hc = .none) : s.running = true :=
  Bool.of_not_eq_false fun hr => hc_ne_none_of_not_running hs hr hc

theorem hostRun_eq_hostSteps {s : State} (hs : s.isLoaded = false) (n : Nat) : s.hostRun n = s.hostSteps n := by
  rw [hostRun, hs, if_neg Bool.false_ne_true, runLoop_eq_hostSteps hs]

end State

theorem not_endsIn_of_hostSteps_running {s : State} (h : ∀ n, (s.hostSteps n).running = true) : ¬ ∃ t, EndsIn s t := by
  rintro ⟨t, n, rfl, hstop, -⟩
  have hs : s.isLoaded = false := State.isLoaded_of_running (h 0)
  rw [State.hostRun_eq_hostSteps hs, h n] at hstop
  cases hstop

/-! ### The JMP to its own address -/

/-- A running core whose window holds a JMP to the value of a register that is the pc. -/
structure AtSelfJump (s : State) (a : Byte) (ha : a.toNat < 8) : Prop where
  running : s.running = true
  pc_le : s.pc.toNat ≤ 253
  window : windowInstr s = .instr (.jmp a)
  reg_eq_pc : (s.reg ⟨a.toNat, ha⟩).toNat = s.pc.toNat

namespace AtSelfJump

variable {s : State} {a : Byte} {ha : a.toNat < 8}

/-- Latching the window changes nothing a self-jump rests on. -/
theorem latched (h : AtSelfJump s a ha) : AtSelfJump s.latched a ha := ⟨h.running, h.pc_le, h.window, h.reg_eq_pc⟩

theorem exec_latched (h : AtSelfJump s a ha) : exec (.jmp a) s.latched = .next s.latched := by
  have htarget : target (s.latched.reg ⟨a.toNat, ha⟩) = s.latched.pc :=
    BitVec.eq_of_toNat_eq ((target_toNat _).trans h.reg_eq_pc)
  rw [exec_jmp ha, htarget, State.setPc_self]

theorem hostStep_eq_latched (h : AtSelfJump s a ha) : s.hostStep = s.latched := by
  obtain ⟨t, hcyc, -⟩ := cycle_not_loaded (State.isLoaded_of_running h.running)
  have hstep : step s = .next t := (step_of_running h.running).trans hcyc
  have hexec : exec (.jmp a) s.start.latched = .next t := exec_of_step h.pc_le h.window hstep
  have hstart : s.start = s := by rw [State.start, ← h.running]
  rw [hstart, h.exec_latched, Host.Outcome.next.injEq] at hexec
  rw [State.hostStep_of_step hstep, hexec]

/-- However many steps a self-jump takes, they leave the state with its own window latched. -/
theorem hostSteps_succ_eq_latched (h : AtSelfJump s a ha) (n : Nat) : s.hostSteps (n + 1) = s.latched := by
  induction n generalizing s with
  | zero => exact h.hostStep_eq_latched
  | succ n ih =>
    calc s.hostSteps (n + 1 + 1)
        = s.latched.hostSteps (n + 1) := by rw [State.hostSteps, h.hostStep_eq_latched]
      _ = s.latched.latched := ih h.latched
      _ = s.latched := rfl

theorem hostSteps_keeps_pc_and_running (h : AtSelfJump s a ha) (n : Nat) :
    (s.hostSteps n).pc = s.pc ∧ (s.hostSteps n).running = true := by
  cases n with
  | zero => exact ⟨rfl, h.running⟩
  | succ n =>
    rw [h.hostSteps_succ_eq_latched]
    exact ⟨s.latched_pc, h.running⟩

end AtSelfJump

/-! ### The obligation -/

/-- Settles O46: no step leads back into the Loaded state, so without a halt cause the core is Running
(`running_of_hc_none`); a self-jump stays where it is (`hostSteps_keeps_pc_and_running`), and a run that always keeps
running has no end. -/
theorem runMayBeInfinite : Obligations.RunMayBeInfinite := by
  refine ⟨fun s hr hc n => ?noHaltCause, fun s a ha hr _ hpc hw hreg => ?selfJump⟩
  case noHaltCause =>
    exact State.running_of_hc_none (State.hostSteps_not_loaded (State.isLoaded_of_running hr) n) (hc n)
  case selfJump =>
    have hkeeps := AtSelfJump.hostSteps_keeps_pc_and_running ⟨hr, hpc, hw, hreg⟩
    exact ⟨hkeeps, not_endsIn_of_hostSteps_running fun n => (hkeeps n).2⟩

end Sys2Proof.Machine
end

section
/-!
PROOFS. Decoding and encoding are inverse (30_encoding.md sections 1 to 3): the opcode byte names the operation (R76), and
the operand bytes of the encoding are the ones decode takes from the window (R74).
-/

namespace Sys2Proof

/-! ### Operand bytes -/

/-- The operand bytes a window begins with are the ones its instruction is built from. -/
theorem instrOf_of_operands_isPrefix {i : Instr} {a b : Byte} (h : i.operands <+: [a, b]) : instrOf a b i.op = i := by
  cases i with
  | hlt | ret => rfl
  | prn | not | push | pop | call | jmp | jeq | jne =>
    obtain ⟨rfl, -⟩ := List.cons_prefix_cons.1 h
    rfl
  | ldi | add | sub | mul | cmp | and | or | xor =>
    obtain ⟨rfl, htail⟩ := List.cons_prefix_cons.1 h
    obtain ⟨rfl, -⟩ := List.cons_prefix_cons.1 htail
    rfl

theorem operands_instrOf_isPrefix (a b : Byte) (o : Op) : (instrOf a b o).operands <+: [a, b] := by
  cases o with
  | hlt | ret => exact List.nil_prefix
  | ldi | add | sub | mul | cmp | and | or | xor => exact List.prefix_rfl
  | prn | not | push | pop | call | jmp | jeq | jne => exact List.prefix_append [a] [b]

/-! ### The encoding -/

theorem encode_isPrefix_iff {i : Instr} {b0 b1 b2 : Byte} :
    encode i <+: [b0, b1, b2] ↔ opcodeOf i.op = b0 ∧ i.operands <+: [b1, b2] := List.cons_prefix_cons

/-- The length of an encoding, for every instruction (30_encoding.md R72, R74). -/
theorem encode_length : ∀ i : Instr, (encode i).length = opLength (opcodeOf i.op)
  | .hlt => Laws.EncodedLength.hlt
  | .ldi a b => Laws.EncodedLength.ldi a b
  | .prn a => Laws.EncodedLength.prn a
  | .add a b => Laws.EncodedLength.add a b
  | .sub a b => Laws.EncodedLength.sub a b
  | .mul a b => Laws.EncodedLength.mul a b
  | .cmp a b => Laws.EncodedLength.cmp a b
  | .and a b => Laws.EncodedLength.and a b
  | .or a b => Laws.EncodedLength.or a b
  | .xor a b => Laws.EncodedLength.xor a b
  | .not a => Laws.EncodedLength.not a
  | .push a => Laws.EncodedLength.push a
  | .pop a => Laws.EncodedLength.pop a
  | .call a => Laws.EncodedLength.call a
  | .ret => Laws.EncodedLength.ret
  | .jmp a => Laws.EncodedLength.jmp a
  | .jeq a => Laws.EncodedLength.jeq a
  | .jne a => Laws.EncodedLength.jne a

/-- Bits 7:6 of an opcode count the operands, because the length is one more than either (30_encoding.md section 3). -/
theorem operandCount_opcodeOf (i : Instr) : ((opcodeOf i.op).extractLsb' 6 2).toNat = i.operands.length :=
  (Nat.succ.inj (encode_length i)).symm

theorem decode_of_encode_isPrefix {i : Instr} {b0 b1 b2 : Byte} (h : encode i <+: [b0, b1, b2]) :
    decode b0 b1 b2 = .instr i := by
  obtain ⟨rfl, hoperands⟩ := encode_isPrefix_iff.1 h
  rw [decode_of_lookup _ _ (lookupOp_opcodeOf i.op), instrOf_of_operands_isPrefix hoperands]

theorem encode_isPrefix_of_decode {i : Instr} {b0 b1 b2 : Byte} (h : decode b0 b1 b2 = .instr i) :
    encode i <+: [b0, b1, b2] := by
  obtain ⟨o, hlookup, rfl⟩ := decode_instr h
  refine encode_isPrefix_iff.2 ⟨?_, operands_instrOf_isPrefix b1 b2 o⟩
  rw [op_instrOf, opcodeOf_of_lookup hlookup]

/-! ### The obligations -/

/-- Settles O19: the table names the instruction at its own opcode, and the window's bytes are its operands
(`decode_of_encode_isPrefix`). -/
theorem decodeOfEncodeIsIdentity : Obligations.DecodeOfEncodeIsIdentity := fun _ _ _ _ => decode_of_encode_isPrefix

/-- Settles O20: the window begins with the encoding (`encode_isPrefix_of_decode`), hence with its opcode byte, which gives
the length (`encode_length`). -/
theorem encodeOfDecodeIsPrefix : Obligations.EncodeOfDecodeIsPrefix := by
  intro i b0 b1 b2 h
  have hprefix := encode_isPrefix_of_decode h
  obtain ⟨hopcode, -⟩ := encode_isPrefix_iff.1 hprefix
  exact ⟨hprefix, hopcode ▸ encode_length i⟩

/-- Settles O22: the operand count is `operandCount_opcodeOf`; the own-PC bit, CALL's length and the injectivity of the map
are facts of the table. -/
theorem opcodeMapMeetsConstraints : Obligations.OpcodeMapMeetsConstraints :=
  ⟨operandCount_opcodeOf, fun i => Machine.opOwnPc_opcodeOf_iff i.op, opLength_call,
    fun _ _ h => Machine.opcodeOf_injective h⟩

/-- Settles O23: six of the words begin with the encoding of their instruction (`decode_of_encode_isPrefix`), and no opcode
is 0x83. -/
theorem sampleWordsDecode : Obligations.SampleWordsDecode := by
  refine ⟨?ldi, ?prn, ?hlt, ?sub, ?pop, ?jne, ?unknown⟩
  case unknown => exact decode_of_lookup_none _ _ (by decide)
  all_goals exact decode_of_encode_isPrefix (by decide)

end Sys2Proof
end

section
/-!
PROOFS. The frames of execution: which registers (10_state.md R22), memory cells (20_memory.md R58), latches and engine
fields an instruction may change, where it leaves pc (30_encoding.md R84), and which instruction raises (60_exceptions.md
R153).
-/

namespace Sys2Proof.Machine

open Sys2Proof.Safety

/-! ### The pc advance and `setReg` -/

@[simp] theorem advance_mem (opcode : Byte) (s : State) : (advance opcode s).mem = s.mem := by rw [advance_eq]; rfl

@[simp] theorem reg_advance (opcode : Byte) (s : State) (r : Fin 8) : (advance opcode s).reg r = s.reg r := by
  rw [advance_eq]; rfl

@[simp] theorem byteAt_advance (opcode : Byte) (s : State) (addr : Nat) :
    (advance opcode s).byteAt addr = s.byteAt addr := by rw [advance_eq]; rfl

theorem State.reg_setReg_of_ne {i r : Fin 8} (h : r.val ≠ i.val) (s : State) (v : Byte) :
    (s.setReg i v).reg r = s.reg r := by
  rw [State.reg_setReg, if_neg fun hi => h (congrArg Fin.val hi).symm]

/-! ### Registers -/

theorem firstBadReg_cons_eq_none {b : Byte} {bs : List Byte} (h : firstBadReg (b :: bs) = none) : b.toNat < 8 := by
  by_contra hb
  cases (if_neg hb).symm.trans h

/-- A write through a checked operand byte leaves the registers that byte does not name. -/
theorem reg_setReg_operand {a : Byte} {bs : List Byte} {r : Fin 8} (hbad : firstBadReg (a :: bs) = none)
    (hr : r.val ∉ [a.toNat]) (s : State) (v : Byte) : (s.setReg (regIndex a) v).reg r = s.reg r := by
  refine State.reg_setReg_of_ne ?_ s v
  rw [regIndex_of_lt (firstBadReg_cons_eq_none hbad)]
  exact List.ne_of_not_mem_cons hr

/-- Push and pop write x[7] alone. -/
theorem reg_setReg_spIndex {r : Fin 8} (hr : r.val ∉ [7]) (s : State) (v : Byte) :
    (s.setReg Config.spIndex v).reg r = s.reg r := State.reg_setReg_of_ne (List.ne_of_not_mem_cons hr) s v

theorem effect_reg_of_not_written {e : Bool} {i : Instr} {r : Fin 8} (hbad : badOperand e i = none)
    (hr : r.val ∉ writtenRegs i) (s : State) : (effect i s).reg r = s.reg r := by
  cases i with
  | hlt | prn | cmp | jmp | jeq | jne => rfl
  | ldi | add | sub | mul | and | or | xor | not => exact reg_setReg_operand hbad hr _ _
  | push | call | ret => exact reg_setReg_spIndex hr _ _
  | pop a =>
    calc (effect (.pop a) s).reg r
        = s.popped.reg r := reg_setReg_operand hbad (List.not_mem_of_not_mem_cons hr) _ _
      _ = s.reg r := State.reg_setReg_of_ne (List.ne_of_not_mem_cons hr) _ _

/-- Settles O35: a raise writes no register, the pc advance neither, and the effect only those of the table
(`effect_reg_of_not_written`). -/
theorem registerFrame : Obligations.RegisterFrame := by
  intro i s t h r hr
  obtain ⟨b, -, rfl⟩ | ⟨hbad, rfl⟩ := exec_cases h
  · exact State.reg_raise ..
  · rw [reg_advance, effect_reg_of_not_written hbad hr]

/-! ### Memory -/

theorem byteAt_pushed_of_ne {s : State} {addr : Nat} (h : some (pushAddr s).toNat ≠ some addr) (v : Byte) :
    (s.pushed v).byteAt addr = s.byteAt addr :=
  State.byteAt_setByte_of_ne _ (fun ha => h (congrArg some ha.symm)) v

theorem effect_byteAt_of_ne_storeAddr {i : Instr} {s : State} {addr : Nat} (h : storeAddr s i ≠ some addr) :
    (effect i s).byteAt addr = s.byteAt addr := by
  cases i with
  | push | call => exact byteAt_pushed_of_ne h _
  | _ => rfl

/-- Settles O36: only the store of a push changes a cell (`effect_byteAt_of_ne_storeAddr`). -/
theorem memoryFrame : Obligations.MemoryFrame := by
  intro i s t h addr haddr
  obtain ⟨b, -, rfl⟩ | ⟨-, rfl⟩ := exec_cases h
  · exact State.byteAt_raise ..
  · rw [byteAt_advance, effect_byteAt_of_ne_storeAddr haddr]

/-! ### The engine's own state -/

/-- Only HLT's effect touches the running flag or the halt cause, and it stops the core with its own address. -/
theorem effect_status (i : Instr) (s : State) :
    (effect i s).hc = (if i = .hlt then .halt s.pc else s.hc) ∧
    (effect i s).running = (if i = .hlt then false else s.running) := by
  by_cases hi : i = .hlt
  · subst hi
    exact ⟨rfl, rfl⟩
  · rw [if_neg hi, if_neg hi]
    exact (effect_status_of_ne_hlt hi s).symm

/-- Other bytes in the latches pass through execution unread (`exec_withLatches`), so each state's own bytes do too. -/
theorem exec_latches {i : Instr} {s t : State} (h : exec i s = .next t) :
    t.ir = s.ir ∧ t.opa = s.opa ∧ t.opb = s.opb := by
  obtain ⟨u, -, hu⟩ := exec_withLatches i s s.ir s.opa s.opb
  obtain rfl : t = u.withLatches s.ir s.opa s.opb := Host.Outcome.next.inj (h.symm.trans hu)
  exact ⟨rfl, rfl, rfl⟩

/-- Settles O39: the latches by `exec_latches`, running and HC by `effect_status_of_ne_hlt`, the output by `exec_out`. -/
theorem engineStateFrame : Obligations.EngineStateFrame := by
  refine fun i s t h => ⟨exec_latches h, fun hi hbad => ?status, fun hprn => ?output⟩
  case status =>
    obtain rfl := Host.Outcome.next.inj ((exec_of_no_badOperand hbad).symm.trans h)
    rw [advance_running, advance_hc]
    exact effect_status_of_ne_hlt hi s
  case output =>
    obtain hout | ⟨a, ha, -⟩ := exec_out h
    · exact hout
    · exact absurd ha (hprn a)

/-- Settles O31: a named operand byte is above 7 (`gt_of_badOperand`) and raises (`exec_of_badOperand`); without one the
instruction completes with its effect, whose status is `effect_status`. -/
theorem registerFaultTable : Obligations.RegisterFaultTable := by
  refine fun i s => ⟨fun b hb => ⟨gt_of_badOperand hb, exec_of_badOperand hb⟩,
    fun hbad => ⟨_, exec_of_no_badOperand hbad, ?_⟩⟩
  rw [advance_hc, advance_running]
  exact effect_status i s

/-! ### Where execution leaves pc -/

theorem effect_pc_of_not_ownPc {i : Instr} (h : opOwnPc (opcodeOf i.op) = false) (s : State) :
    (effect i s).pc = s.pc := by
  cases i with
  | call | ret | jmp | jeq | jne => simp [Instr.op] at h
  | _ => rfl

theorem target_toNat_le (v : Byte) : (target v).toNat ≤ 255 := target_toNat v ▸ Nat.le_of_lt_succ v.isLt

/-- A control transfer that can be fetched goes to a byte's value or falls through to at most 255. -/
theorem effect_pc_le_of_ownPc {i : Instr} {s : State} (h : opOwnPc (opcodeOf i.op) = true) (hpc : s.pc.toNat ≤ 253) :
    (effect i s).pc.toNat ≤ 255 := by
  have hfall : (fallThrough s).toNat ≤ 255 := fallThrough_toNat hpc ▸ Nat.add_le_add_right hpc 2
  cases i with
  | call | ret | jmp => exact target_toNat_le _
  | jeq a =>
    rw [effect, State.setPc_pc]
    split
    · exact target_toNat_le _
    · exact hfall
  | jne a =>
    rw [effect, State.setPc_pc]
    split
    · exact hfall
    · exact target_toNat_le _
  | _ => simp [Instr.op] at h

theorem advance_pc_toNat {s : State} {o : Op} (hown : opOwnPc (opcodeOf o) = false) (hpc : s.pc.toNat ≤ 253) :
    (advance (opcodeOf o) s).pc.toNat = s.pc.toNat + opLength (opcodeOf o) := by
  have hlen := opLength_opcodeOf_le_three o
  rw [advance_of_not_ownPc hown, State.setPc_pc, BitVec.toNat_add, BitVec.toNat_ofNat]
  omega

/-- pc after an instruction that completes, by the own-PC bit of its opcode (30_encoding.md R84). -/
theorem completed_pc {i : Instr} {s : State} (hpc : s.pc.toNat ≤ 253) :
    (opOwnPc (opcodeOf i.op) = false →
      (advance (opcodeOf i.op) (effect i s)).pc.toNat = s.pc.toNat + opLength (opcodeOf i.op)) ∧
    (opOwnPc (opcodeOf i.op) = true → (advance (opcodeOf i.op) (effect i s)).pc.toNat ≤ 255) := by
  refine ⟨fun hown => ?_, fun hown => ?_⟩
  · have heff := effect_pc_of_not_ownPc hown s
    rw [advance_pc_toNat hown (heff ▸ hpc), heff]
  · rw [advance_of_ownPc hown]
    exact effect_pc_le_of_ownPc hown hpc

theorem completed_pc_le {i : Instr} {s : State} (hpc : s.pc.toNat ≤ 253) :
    (advance (opcodeOf i.op) (effect i s)).pc.toNat ≤ 256 := by
  obtain ⟨hlength, hown⟩ := completed_pc (i := i) hpc
  cases h : opOwnPc (opcodeOf i.op) with
  | true => exact (hown h).trans (by decide)
  | false =>
    rw [hlength h]
    exact Nat.add_le_add hpc (opLength_opcodeOf_le_three i.op)

/-- Settles O41: the two cases of `completed_pc`, with the length of the encoding (`encode_length`) and the five opcodes
that have the own-PC bit. -/
theorem pcAfterInstruction : Obligations.PcAfterInstruction := by
  intro i s t hpc hbad h
  obtain rfl := Host.Outcome.next.inj ((exec_of_no_badOperand hbad).symm.trans h)
  obtain ⟨hlength, hown⟩ := completed_pc (i := i) hpc
  refine ⟨fun h0 => ⟨?_, completed_pc_le hpc⟩, fun h1 => ⟨hown h1, (opOwnPc_opcodeOf_iff i.op).1 h1⟩⟩
  rw [hlength h0, encode_length]

end Sys2Proof.Machine
end

section
/-!
PROOFS. What a step can do, said once with the error it takes: either it raises in the state it began in, with the record
the invariant asks for (60_exceptions.md R151, R152), or it completes the instruction in its window (30_encoding.md R81).
The rules of fetch, of the halt record and of the stops follow.
-/

namespace Sys2Proof.Machine

open Sys2Proof.Safety

/-! ### The cycle at a window that decodes -/

theorem cycle_of_window {s : State} {i : Instr} (hpc : s.pc.toNat ≤ 253) (hw : windowInstr s = .instr i) :
    cycle s = exec i s.latched := by
  obtain ⟨hge, -⟩ | ⟨-, ⟨hl, -⟩ | ⟨j, hj, hexec⟩⟩ := cycle_cases s
  · exact absurd (hge.trans hpc) (by decide)
  · cases hw.symm.trans (decode_of_lookup_none _ _ hl)
  · obtain rfl : i = j := Decoded.instr.inj (hw.symm.trans hj)
    exact hexec

/-- Settles O25: a Running core's step is its cycle, a Loaded core's the cycle of the started core, whose window is the
same; `cycle_of_window` executes it. -/
theorem stepRunsDecodedInstruction : Obligations.StepRunsDecodedInstruction := fun s _ hpc hw =>
  ⟨fun hr => (step_of_running hr).trans (cycle_of_window hpc hw),
    fun hl => (step_eq_cycle_start (.inr hl)).trans (cycle_of_window (s := s.start) hpc hw)⟩

/-! ### The fetch -/

theorem fetch_succeeds_iff (s : State) : (fetch s).2 = none ↔ s.pc.toNat ≤ 253 := by
  refine ⟨fun h => ?_, fun hpc => by rw [fetch_ok hpc]⟩
  by_contra hpc
  obtain ⟨b0, b1, hf⟩ := fetch_error (Nat.lt_of_not_le hpc)
  rw [hf] at h
  cases h

/-- Settles O26: `fetch_succeeds_iff`, and from 254 on the started core raises before any instruction runs
(`step_of_running_past_top`), in a state that differs in latches alone. -/
theorem fetchWindowFaultsPastTop : Obligations.FetchWindowFaultsPastTop := by
  refine ⟨fetch_succeeds_iff, fun s hs hge hle => ?_⟩
  obtain ⟨b0, b1, hstep⟩ := step_of_running_past_top (s := s.start) rfl hge
  rw [step_of_running s.start_running, ← step_eq_cycle_start hs, s.start_pc, Nat.max_eq_left hle] at hstep
  exact ⟨_, hstep, rfl, rfl, rfl, rfl, rfl, rfl, rfl⟩

/-! ### What a step can do -/

/-- What a step that answers a next state did. The error it took, if it took one, has the record of `RecordOk`; a fetch
error reports 256 only where pc is at most 256, as it is in every run. -/
theorem step_raises_or_completes {s t : State} (h : step s = .next t) :
    (∃ r a b e, t = (s.withLatches r a b).raise e ∧ (s.pc.toNat ≤ 256 → RecordOk s.pc (e.record s.pc))) ∨
    (s.pc.toNat ≤ 253 ∧ ∃ i, windowInstr s = .instr i ∧
      t = advance (opcodeOf i.op) (effect i s.start.latched)) := by
  have hcycle := cycle_start_of_step h
  obtain ⟨hge, b0, b1, hfetch⟩ | ⟨hpc, ⟨hl, hunknown⟩ | ⟨i, hi, hexec⟩⟩ := cycle_cases s.start
  · refine .inl ⟨b0, b1, s.opb, _, Host.Outcome.next.inj (hcycle.symm.trans hfetch), fun hle => ?_⟩
    exact ⟨rfl, hge, hle, Nat.max_eq_left hle⟩
  · exact .inl ⟨_, _, _, _, Host.Outcome.next.inj (hcycle.symm.trans hunknown), fun _ => ⟨rfl, hpc, hl⟩⟩
  · obtain ⟨b, hb, ht⟩ | ⟨-, ht⟩ := exec_cases (hexec.symm.trans hcycle)
    · exact .inl ⟨_, _, _, _, ht, fun _ => ⟨rfl, hpc, gt_of_badOperand hb, Nat.le_of_lt_succ b.isLt⟩⟩
    · exact .inr ⟨hpc, i, hi, ht⟩

/-- The running flag and the halt cause after an instruction that completes: only HLT changes them. -/
theorem completed_status (i : Instr) (s : State) :
    (advance (opcodeOf i.op) (effect i s)).hc = (if i = .hlt then .halt s.pc else s.hc) ∧
    (advance (opcodeOf i.op) (effect i s)).running = (if i = .hlt then false else s.running) := by
  rw [advance_hc, advance_running]
  exact effect_status i s

/-! ### The halt record and the stops -/

theorem isFatal_record (pc : PcWord) (e : FatalError) : IsFatal (e.record pc) = true := by cases e <;> rfl

theorem record_cases (pc : PcWord) (e : FatalError) :
    (∃ op, e.record pc = .unknownInstruction op pc) ∨ (∃ k n, e.record pc = .addressError k n pc) := by
  cases e with
  | unknownInstruction op => exact .inl ⟨op, rfl⟩
  | addressError k n => exact .inr ⟨k, n, rfl⟩

/-- Settles O29: the two records of `raise`, by its definition. -/
theorem raiseRecordsAndStops : Obligations.RaiseRecordsAndStops := ⟨fun _ _ => rfl, fun _ _ _ => rfl⟩

/-- Settles O30: a step that raises does so in the state it began in but for the latches; one that completes leaves the
cause NONE or records HALT, which is not fatal. -/
theorem fatalErrorsArePrecise : Obligations.FatalErrorsArePrecise := by
  intro s t hnone h hfatal
  obtain ⟨r, a, b, e, rfl, -⟩ | ⟨-, i, -, rfl⟩ := step_raises_or_completes h
  · exact ⟨rfl, record_cases s.pc e⟩
  · have hnotFatal : IsFatal (advance (opcodeOf i.op) (effect i s.start.latched)).hc = false := by
      rw [(completed_status i _).1, State.latched_hc, State.start_hc, hnone]
      split <;> rfl
    cases hnotFatal.symm.trans hfatal

/-- Settles O40: a step that raises stops with a fatal error; one that completes stops only for HLT
(`completed_status`). -/
theorem onlyHltOrFatalErrorStops : Obligations.OnlyHltOrFatalErrorStops := by
  intro s t h
  obtain ⟨r, a, b, e, rfl, -⟩ | ⟨-, i, hw, rfl⟩ := step_raises_or_completes h
  · exact ⟨fun _ => .inr (isFatal_record s.pc e), fun hrun => Bool.noConfusion hrun⟩
  · obtain ⟨hhc, hrunning⟩ := completed_status i s.start.latched
    rw [hhc, hrunning]
    by_cases hi : i = .hlt
    · rw [if_pos hi, if_pos hi]
      exact ⟨fun _ => .inl ⟨hi ▸ hw, rfl⟩, fun hrun => Bool.noConfusion hrun⟩
    · rw [if_neg hi, if_neg hi]
      exact ⟨fun hstop => Bool.noConfusion hstop, fun _ => rfl⟩

end Sys2Proof.Machine
end

section
/-!
PROOFS. Memory as data (20_memory.md R50), the host's accessors (R64), the loader (70_reset_and_hazards.md R183) and the
reset values (10_state.md section 5).
-/

namespace Sys2Proof.Machine

/-! ### Canonical memory is its bytes -/

namespace Memory

theorem read_cons_self (a : Nat) (v : Byte) (m : Memory) : read ((a, v) :: m) a = v := if_pos rfl

theorem read_cons_of_ne {a b : Nat} (h : b ≠ a) (v : Byte) (m : Memory) : read ((b, v) :: m) a = read m a := if_neg h

/-- A memory that reads as another does at the other's first listed address lists that address or a lower one. -/
theorem le_head_of_read_eq {lo a b : Nat} {v w : Byte} {m m' : Memory} (hm : wfFrom lo ((a, v) :: m) = true)
    (hm' : wfFrom b ((b, w) :: m') = true) (h : read ((a, v) :: m) a = read ((b, w) :: m') a) : b ≤ a := by
  obtain ⟨-, hv, -⟩ := wfFrom_cons.1 hm
  by_contra hlt
  rw [read_cons_self, read_eq_zero_of_lt hm' (Nat.lt_of_not_le hlt)] at h
  exact hv h

/-- A listed memory is not all zero. -/
theorem exists_read_ne_zero {lo : Nat} {c : Host.Cell} {m : Memory} (hm : wfFrom lo (c :: m) = true) :
    ∃ a < Config.memSize, read (c :: m) a ≠ 0#8 := by
  obtain ⟨⟨-, hlt⟩, hv, -⟩ := wfFrom_cons.1 hm
  exact ⟨c.1, hlt, (read_cons_self c.1 c.2 m).symm ▸ hv⟩

/-- The canonical form restricted to start at its own first listed address. -/
theorem wfFrom_head {lo a : Nat} {v : Byte} {m : Memory} (hm : wfFrom lo ((a, v) :: m) = true) :
    wfFrom a ((a, v) :: m) = true := by
  obtain ⟨⟨-, hlt⟩, hv, htail⟩ := wfFrom_cons.1 hm
  exact wfFrom_cons.2 ⟨⟨le_rfl, hlt⟩, hv, htail⟩

/-- Canonical memories that read alike are equal: their first listed addresses bound each other, the bytes there agree,
and the tails read alike because both read 0x00 up to that address. -/
theorem eq_of_read_eq {lo lo' : Nat} {m m' : Memory} (hm : wfFrom lo m = true) (hm' : wfFrom lo' m' = true)
    (h : ∀ addr < Config.memSize, read m addr = read m' addr) : m = m' := by
  induction m generalizing lo lo' m' with
  | nil =>
    cases m' with
    | nil => rfl
    | cons c' m' =>
      obtain ⟨a, ha, hne⟩ := exists_read_ne_zero hm'
      exact absurd (h a ha).symm hne
  | cons c m ih =>
    cases m' with
    | nil =>
      obtain ⟨a, ha, hne⟩ := exists_read_ne_zero hm
      exact absurd (h a ha) hne
    | cons c' m' =>
      obtain ⟨a, v⟩ := c
      obtain ⟨b, w⟩ := c'
      obtain ⟨⟨-, ha⟩, -, htail⟩ := wfFrom_cons.1 hm
      obtain ⟨⟨-, hb⟩, -, htail'⟩ := wfFrom_cons.1 hm'
      obtain rfl : a = b := Nat.le_antisymm (le_head_of_read_eq hm' (wfFrom_head hm) (h b hb).symm)
        (le_head_of_read_eq hm (wfFrom_head hm') (h a ha))
      obtain rfl : v = w := by simpa only [read_cons_self] using h a ha
      rw [ih htail htail' fun addr haddr => ?_]
      obtain hlt | hle := Nat.lt_or_ge a addr
      · simpa only [read_cons_of_ne hlt.ne] using h addr haddr
      · rw [read_eq_zero_of_lt htail (Nat.lt_succ_of_le hle), read_eq_zero_of_lt htail' (Nat.lt_succ_of_le hle)]

end Memory

/-- Settles O51: both canonical forms start at address 0, and `Memory.eq_of_read_eq` compares them cell by cell. -/
theorem canonicalMemoryIsItsBytes : Obligations.CanonicalMemoryIsItsBytes := fun _ _ => Memory.eq_of_read_eq

/-! ### The host's accessors -/

namespace State

theorem hostRead_of_lt {addr : Nat} (h : addr < 256) (s : State) : s.hostRead addr = .ok (s.byteAt addr) := if_pos h

theorem hostRead_of_ge {addr : Nat} (h : 256 ≤ addr) (s : State) : s.hostRead addr = .error (.addressError addr) :=
  if_neg (Nat.not_lt.2 h)

theorem loadWrite_of_lt {s : State} (hs : s.isLoaded = true) {addr : Nat} (h : addr < 256) (v : Byte) :
    s.loadWrite addr v = .ok (s.setByte addr v) := (if_pos hs).trans (if_pos h)

theorem loadWrite_of_ge {s : State} (hs : s.isLoaded = true) {addr : Nat} (h : 256 ≤ addr) (v : Byte) :
    s.loadWrite addr v = .error (.addressError addr) := (if_pos hs).trans (if_neg (Nat.not_lt.2 h))

theorem loadWrite_of_not_loaded {s : State} (hs : s.isLoaded = false) (addr : Nat) (v : Byte) :
    s.loadWrite addr v = .error .notLoaded := if_neg (hs ▸ Bool.false_ne_true)

theorem byteAt_setByte_self {s : State} (hm : Memory.wf s.mem = true) (addr : Nat) (v : Byte) :
    (s.setByte addr v).byteAt addr = v := Memory.read_write_self hm addr v

end State

/-- Settles O52: the two sides of 255/256 of each accessor, a write outside Loaded, and what `setByte` leaves. -/
theorem hostAccessorsStayInRange : Obligations.HostAccessorsStayInRange := by
  refine ⟨fun s addr => ⟨fun h => ?read, fun h => State.hostRead_of_ge h s⟩,
    fun s addr v hs h => State.loadWrite_of_ge hs h v, fun s addr v hs hm h => ?write,
    fun s addr v hs => State.loadWrite_of_not_loaded hs addr v⟩
  case read => exact State.hostRead_of_lt (Nat.lt_succ_of_le h) s
  case write =>
    exact ⟨_, State.loadWrite_of_lt hs (Nat.lt_succ_of_le h) v, rfl, State.byteAt_setByte_self hm addr v,
      fun b hb => State.byteAt_setByte_of_ne s hb v⟩

/-! ### The loader -/

namespace State

/-- Placing bytes changes memory alone. -/
theorem placeBytes_eq_withMem (s : State) (addr : Nat) (bs : List Byte) :
    s.placeBytes addr bs = { s with mem := (s.placeBytes addr bs).mem } := by
  induction bs generalizing s addr with
  | nil => rfl
  | cons b bs ih =>
    rw [placeBytes, ih]
    split <;> rfl

theorem placeBytes_cons {addr : Nat} (h : addr < 256) (s : State) (b : Byte) (bs : List Byte) :
    s.placeBytes addr (b :: bs) = (s.setByte addr b).placeBytes (addr + 1) bs := by
  rw [placeBytes, if_pos (show addr < Config.memSize from h)]

theorem byteAt_placeBytes_outside {addr a : Nat} {bs : List Byte} (h : a < addr ∨ addr + bs.length ≤ a) (s : State) :
    (s.placeBytes addr bs).byteAt a = s.byteAt a := by
  induction bs generalizing s addr with
  | nil => rfl
  | cons b bs ih =>
    rw [List.length_cons] at h
    rw [placeBytes, ih (by omega)]
    split
    · exact byteAt_setByte_of_ne s (by omega) b
    · rfl

theorem byteAt_placeBytes_inside {s : State} (hm : Memory.wf s.mem = true) {addr : Nat} {bs : List Byte}
    (hfit : addr + bs.length ≤ 256) {k : Nat} (hk : k < bs.length) :
    (s.placeBytes addr bs).byteAt (addr + k) = bs[k] := by
  induction bs generalizing s addr k with
  | nil => exact absurd hk (Nat.not_lt_zero k)
  | cons b bs ih =>
    rw [List.length_cons] at hfit hk
    have haddr : addr < 256 := by omega
    rw [placeBytes_cons haddr]
    cases k with
    | zero =>
      exact (byteAt_placeBytes_outside (.inl (Nat.lt_add_one addr)) _).trans (byteAt_setByte_self hm addr b)
    | succ k =>
      rw [List.getElem_cons_succ, Nat.add_comm k 1, ← Nat.add_assoc]
      exact ih (wf_setByte hm haddr b) (by omega) (Nat.lt_of_succ_lt_succ hk)

theorem loadFrom_cons_of_ok {s t : State} {addr : Nat} {b : Byte} (h : s.loadWrite addr b = .ok t) (bs : List Byte) :
    s.loadFrom addr (b :: bs) = t.loadFrom (addr + 1) bs := by rw [loadFrom, h]

theorem loadFrom_cons_of_error {s : State} {addr : Nat} {b : Byte} {e : HostError} (h : s.loadWrite addr b = .error e)
    (bs : List Byte) : s.loadFrom addr (b :: bs) = (s, some e) := by rw [loadFrom, h]

/-- The loader places a program that fits, and reports no error. -/
theorem loadFrom_eq_placeBytes {s : State} (hs : s.isLoaded = true) {addr : Nat} {bs : List Byte}
    (hfit : addr + bs.length ≤ 256) : s.loadFrom addr bs = (s.placeBytes addr bs, none) := by
  induction bs generalizing s addr with
  | nil => rfl
  | cons b bs ih =>
    rw [List.length_cons] at hfit
    have haddr : addr < 256 := by omega
    rw [loadFrom_cons_of_ok (loadWrite_of_lt hs haddr b), placeBytes_cons haddr]
    exact ih (s := s.setByte addr b) hs (by omega)

/-- The loader writes up to 255 and then fails with the first address above it. -/
theorem loadFrom_error_of_overflow {s : State} (hs : s.isLoaded = true) {addr : Nat} {bs : List Byte}
    (haddr : addr ≤ 256) (hover : 256 < addr + bs.length) :
    ∃ t, s.loadFrom addr bs = (t, some (.addressError 256)) := by
  induction bs generalizing s addr with
  | nil => exact absurd hover (Nat.not_lt.2 haddr)
  | cons b bs ih =>
    rw [List.length_cons] at hover
    obtain hlt | rfl := Nat.lt_or_eq_of_le haddr
    · rw [loadFrom_cons_of_ok (loadWrite_of_lt hs hlt b)]
      exact ih (s := s.setByte addr b) hs hlt (by omega)
    · exact ⟨s, loadFrom_cons_of_error (loadWrite_of_ge hs le_rfl b) bs⟩

/-- Every byte the loader stores is a write inside memory, so what such writes keep, a load keeps. -/
theorem loadFrom_keeps {P : State → Prop} (hwrite : ∀ s addr v, addr < 256 → P s → P (s.setByte addr v)) {s : State}
    (hs : P s) (addr : Nat) (bs : List Byte) : P (s.loadFrom addr bs).1 := by
  induction bs generalizing s addr with
  | nil => exact hs
  | cons b bs ih =>
    cases hl : s.isLoaded with
    | false =>
      rw [loadFrom_cons_of_error (loadWrite_of_not_loaded hl addr b)]
      exact hs
    | true =>
      obtain hlt | hge := Nat.lt_or_ge addr 256
      · rw [loadFrom_cons_of_ok (loadWrite_of_lt hl hlt b)]
        exact ih (hwrite s addr b hlt hs) (addr + 1)
      · rw [loadFrom_cons_of_error (loadWrite_of_ge hl hge b)]
        exact hs

end State

/-- Settles O53: a program that fits is placed (`loadFrom_eq_placeBytes`), and the laws of `placeBytes` say where; one that
does not ends in the error of `loadFrom_error_of_overflow`. -/
theorem loaderPlacesProgram : Obligations.LoaderPlacesProgram := by
  refine fun s addr bytes hs hm haddr => ⟨fun hfit => ?fits, fun hover => ?overflows⟩
  case fits =>
    exact ⟨_, State.loadFrom_eq_placeBytes hs hfit, State.placeBytes_eq_withMem s addr bytes,
      fun k hk => State.byteAt_placeBytes_inside hm hfit hk, fun b hb => State.byteAt_placeBytes_outside hb s⟩
  case overflows => exact State.loadFrom_error_of_overflow hs (Nat.le_succ_of_le haddr) hover

/-! ### Reset -/

theorem resetAt_pc_toNat (loadAddr : Byte) : (State.resetAt loadAddr).pc.toNat = loadAddr.toNat := target_toNat loadAddr

theorem resetAt_reg_of_lt (loadAddr : Byte) : ∀ i : Fin 8, i.val < 7 → (State.resetAt loadAddr).reg i = 0x00 := by
  have hx : ∀ i : Fin 8, i.val < 7 → (#v[0, 0, 0, 0, 0, 0, 0, Config.spReset] : Vector Byte 8)[i] = 0x00 := by decide
  exact hx

/-- Settles O49: the registers one by one (`resetAt_reg_of_lt`), pc the zero-extended LOAD_ADDR, the other fields as
`resetAt` lists them. -/
theorem resetDecidedValues : Obligations.ResetDecidedValues :=
  ⟨fun loadAddr => ⟨resetAt_reg_of_lt loadAddr, resetAt_pc_toNat loadAddr, rfl, rfl, rfl, rfl, rfl⟩, rfl⟩

end Sys2Proof.Machine
end

section
/-!
PROOFS. The invariant of the core: reset meets it (70_reset_and_hazards.md R180), the loader and every step keep it, so it
holds along every run of every loaded program; and a core with a halt cause stays as it is (60_exceptions.md R155).
-/

namespace Sys2Proof.Machine

open Sys2Proof.Safety

/-! ### Canonical memory -/

theorem wf_mem_pushed {s : State} (hm : Memory.wf s.mem = true) (v : Byte) : Memory.wf (s.pushed v).mem = true :=
  State.wf_setByte (s := s.setReg Config.spIndex (pushAddr s)) hm (pushAddr s).isLt v

/-- A push stores inside memory; no other effect touches it. -/
theorem wf_mem_effect {s : State} (hm : Memory.wf s.mem = true) (i : Instr) :
    Memory.wf (effect i s).mem = true := by
  cases i with
  | push | call => exact wf_mem_pushed hm _
  | _ => exact hm

/-! ### What a step keeps -/

theorem step_keeps_fl_le_one {s t : State} (h : step s = .next t) (hs : s.fl.toNat ≤ 1) : t.fl.toNat ≤ 1 := by
  obtain hfl | ⟨-, -, -, -, hfl | hfl⟩ := step_fl h
  · exact hfl ▸ hs
  · rw [hfl]; decide
  · rw [hfl]; decide

/-- The record HLT leaves agrees with the pc it advances to. -/
theorem recordOk_completed_hlt {s : State} (hpc : s.pc.toNat ≤ 253) :
    RecordOk (advance (opcodeOf .hlt) (effect .hlt s)).pc (.halt s.pc) := by
  refine ⟨hpc, ?_⟩
  rw [advance_of_not_ownPc opOwnPc_hlt, opLength_hlt]
  rfl

/-- Completing an instruction keeps the parts of the invariant that speak of the halt record. -/
theorem completed_record {i : Instr} {s t : State} (hpc : s.pc.toNat ≤ 253) (hnone : s.hc = .none)
    (ht : t = advance (opcodeOf i.op) (effect i s)) : (t.running = true → t.hc = .none) ∧ RecordOk t.pc t.hc := by
  obtain ⟨hhc, hrunning⟩ := completed_status i s
  rw [← ht] at hhc hrunning
  by_cases hi : i = .hlt
  · subst hi
    rw [if_pos rfl] at hhc hrunning
    refine ⟨fun hrun => absurd (hrunning.symm.trans hrun) Bool.false_ne_true, ?_⟩
    rw [hhc, ht]
    exact recordOk_completed_hlt hpc
  · rw [if_neg hi, hnone] at hhc
    rw [hhc]
    exact ⟨fun _ => rfl, trivial⟩

namespace State

theorem running_false_of_halted {s : State} (hinv : Inv s) (hc : s.hc ≠ .none) : s.running = false :=
  Bool.of_not_eq_true fun hr => hc (hinv.runningNone hr)

theorem hc_none_of_step {s t : State} (hinv : Inv s) (h : step s = .next t) : s.hc = .none := by
  obtain ⟨hr, -⟩ | ⟨-, hc, -⟩ := step_cases h
  · exact hinv.runningNone hr
  · exact hc

/-- A raise keeps the invariant when its record agrees with pc, whatever the latches hold. -/
theorem inv_raise {s : State} (hinv : Inv s) (r a b : Byte) {e : FatalError} (he : RecordOk s.pc (e.record s.pc)) :
    Inv ((s.withLatches r a b).raise e) :=
  ⟨hinv.memWf, hinv.pcBound, hinv.flReserved, fun hrun => Bool.noConfusion hrun, he⟩

theorem inv_setByte {s : State} (hinv : Inv s) {addr : Nat} (h : addr < 256) (v : Byte) : Inv (s.setByte addr v) :=
  ⟨wf_setByte hinv.memWf h v, hinv.pcBound, hinv.flReserved, hinv.runningNone, hinv.record⟩

theorem inv_resetAt (loadAddr : Byte) : Inv (resetAt loadAddr) where
  memWf := Memory.wf_nil
  pcBound := (target_toNat_le loadAddr).trans (by decide)
  flReserved := (by decide : (0 : Byte).toNat ≤ 1)
  runningNone _ := rfl
  record := trivial

end State

theorem step_keeps_inv {s t : State} (hinv : Inv s) (h : step s = .next t) : Inv t := by
  have hfl := step_keeps_fl_le_one h hinv.flReserved
  have hnone := State.hc_none_of_step hinv h
  obtain ⟨r, a, b, e, rfl, he⟩ | ⟨hpc, i, -, ht⟩ := step_raises_or_completes h
  · exact State.inv_raise hinv r a b (he hinv.pcBound)
  · obtain ⟨hrun, hrecord⟩ := completed_record (s := s.start.latched) hpc hnone ht
    refine ⟨?memWf, ?pcBound, hfl, hrun, hrecord⟩
    case memWf =>
      rw [ht, advance_mem]
      exact wf_mem_effect (s := s.start.latched) hinv.memWf i
    case pcBound =>
      rw [ht]
      exact completed_pc_le (s := s.start.latched) hpc

/-! ### The invariant along a run -/

namespace State

theorem inv_hostStep {s : State} (hinv : Inv s) : Inv s.hostStep := by
  unfold hostStep
  split
  · exact step_keeps_inv hinv ‹_›
  · exact hinv
  · exact hinv

theorem inv_hostSteps {s : State} (hinv : Inv s) (n : Nat) : Inv (s.hostSteps n) := by
  induction n generalizing s with
  | zero => exact hinv
  | succ n ih => exact ih (inv_hostStep hinv)

end State

/-! ### The obligations -/

/-- Settles O32: a step that raises keeps the state it began in and leaves a record that agrees with pc
(`State.inv_raise`); one that completes keeps each part of the invariant. -/
theorem stepKeepsInvariant : Obligations.StepKeepsInvariant := fun _ _ => step_keeps_inv

/-- Settles O33: `State.inv_resetAt`, field by field. -/
theorem resetMeetsInvariant : Obligations.ResetMeetsInvariant := State.inv_resetAt

/-- Settles O34: reset meets the invariant, the loader's writes keep it (`State.loadFrom_keeps`), and so do the host's
steps. -/
theorem everyLoadedRunKeepsInvariant : Obligations.EveryLoadedRunKeepsInvariant := fun loadAddr program =>
  State.inv_hostSteps <|
    State.loadFrom_keeps (P := Inv) (fun _ _ v h hinv => State.inv_setByte hinv h v) (State.inv_resetAt loadAddr)
      loadAddr.toNat program

/-- Settles O28: a core with a halt cause is not running and not Loaded, so there is no step and the host's operations
answer the state itself. -/
theorem haltedIsTerminal : Obligations.HaltedIsTerminal := by
  intro s hinv hc
  have hr := State.running_false_of_halted hinv hc
  have hsteps := State.hostSteps_of_halted hr hc
  refine ⟨step_of_halted hr hc, fun n => ⟨hsteps n, ?_⟩⟩
  rw [State.hostRun_eq_hostSteps (State.isLoaded_of_hc hc), hsteps n]

end Sys2Proof.Machine
end

section
/-!
PROOFS. The rules of HLT, LDI, PUSH, POP, CALL and the branches (40_hlt_ldi_prn.md, 42_stack.md, 43_control_transfer.md):
the whole next state of each, then the laws over two instructions that rest on them.
-/

namespace Sys2Proof.Machine

open Sys2Proof.Safety

/-! ### HLT and LDI -/

theorem exec_hlt (s : State) : exec .hlt s = .next { s with running := false, hc := .halt s.pc, pc := s.pc + 1 } :=
  exec_of_not_ownPc (i := .hlt) rfl opOwnPc_hlt opLength_hlt

/-- Settles O1: the row of HLT in the opcode table, its next state (`exec_hlt`), which is Halted, and the fetch fault at
the top of memory. -/
theorem hltStopsAndRecords : Obligations.HltStopsAndRecords := by
  refine ⟨?encoded, fun s => ⟨_, exec_hlt s, rfl, ?halted⟩, topFetchFaults⟩
  case encoded => exact encodedAs_opcodeOf .hlt
  case halted => exact step_of_halted rfl HaltCause.noConfusion

theorem exec_ldi {a : Byte} (ha : a.toNat < 8) (b : Byte) (s : State) :
    exec (.ldi a b) s = .next { s with x := s.x.set a.toNat b, pc := s.pc + 3 } := by
  rw [exec_of_not_ownPc (i := .ldi a b) (firstBadReg_singleton_of_lt ha) opOwnPc_ldi opLength_ldi, effect,
    regIndex_of_lt ha]
  rfl

/-- Settles O2: the row of LDI in the opcode table, its next state (`exec_ldi`) and its operand check. -/
theorem ldiLoadsImmediate : Obligations.LdiLoadsImmediate := by
  refine ⟨?encoded, fun s a b ha => exec_ldi ha b s, fun b => checksA_of_badOperand fun _ _ => rfl⟩
  case encoded => exact encodedAs_opcodeOf .ldi

/-! ### PUSH and POP -/

/-- The stack pointer decremented modulo 256 (20_memory.md R55). -/
theorem pushAddr_toNat (s : State) : ((pushAddr s).toNat : Int) = ((s.sp.toNat : Int) - 1) % 256 := by
  have hlt := s.sp.isLt
  rw [pushAddr, BitVec.toNat_sub]
  change (((256 - 1 + s.sp.toNat) % 256 : Nat) : Int) = _
  omega

theorem exec_push {a : Byte} (ha : a.toNat < 8) (s : State) :
    exec (.push a) s = .next { s with
      x := s.x.set 7 (pushAddr s), mem := Memory.write s.mem (pushAddr s).toNat (s.reg ⟨a.toNat, ha⟩),
      pc := s.pc + 2 } := by
  rw [exec_of_not_ownPc (i := .push a) (firstBadReg_singleton_of_lt ha) opOwnPc_push opLength_push, effect,
    regIndex_of_lt ha]
  rfl

theorem exec_pop {a : Byte} (ha : a.toNat < 8) (s : State) :
    exec (.pop a) s = .next { s with
      x := (s.x.set 7 (s.sp + 1)).set a.toNat (s.byteAt s.sp.toNat), pc := s.pc + 2 } := by
  rw [exec_of_not_ownPc (i := .pop a) (firstBadReg_singleton_of_lt ha) opOwnPc_pop opLength_pop, effect,
    regIndex_of_lt ha]
  rfl

/-- Settles O12: the row of PUSH in the opcode table, its next state (`exec_push`) with the decrement of `pushAddr_toNat`,
and its operand check. -/
theorem pushStoresBelowStackPointer : Obligations.PushStoresBelowStackPointer := by
  refine ⟨?encoded, fun s a ha => ⟨_, pushAddr_toNat s, exec_push ha s⟩, checksA_of_badOperand fun _ _ => rfl⟩
  case encoded => exact encodedAs_opcodeOf .push

/-- Settles O13: the row of POP in the opcode table, its next state (`exec_pop`) with the increment of a byte, and its
operand check. -/
theorem popReadsAtStackPointer : Obligations.PopReadsAtStackPointer := by
  refine ⟨?encoded, fun s a ha => ⟨_, ?wraps, exec_pop ha s⟩, checksA_of_badOperand fun _ _ => rfl⟩
  case encoded => exact encodedAs_opcodeOf .pop
  case wraps => exact BitVec.toNat_add s.sp 1

/-! ### CALL -/

/-- The register a CALL jumps to, as it reads after the push: x[7] is then the new stack pointer (the spec's decision
D10). -/
theorem reg_pushed (s : State) (v : Byte) (i : Fin 8) :
    (s.pushed v).reg i = if i.val = 7 then pushAddr s else s.reg i := by
  rw [State.pushed, State.reg_setByte, State.reg_setReg]
  exact if_congr (eq_comm.trans Fin.ext_iff) rfl rfl

theorem exec_call {a : Byte} (ha : a.toNat < 8) (s : State) :
    exec (.call a) s = .next { s with
      x := s.x.set 7 (pushAddr s), mem := Memory.write s.mem (pushAddr s).toNat (returnAddr s),
      pc := target (if a.toNat = 7 then pushAddr s else s.reg ⟨a.toNat, ha⟩) } := by
  rw [exec_of_ownPc (i := .call a) (firstBadReg_singleton_of_lt ha) opOwnPc_call, effect, regIndex_of_lt ha, reg_pushed]
  rfl

/-- Settles O14: the row of CALL in the opcode table, its next state (`exec_call`) with the values pushed and jumped to,
and its operand check. -/
theorem callPushesReturnAddress : Obligations.CallPushesReturnAddress := by
  refine ⟨?encoded, fun s a ha hpc => ⟨_, _, _, pushAddr_toNat s, returnAddr_toNat hpc, target_toNat _, exec_call ha s⟩,
    checksA_of_badOperand fun _ _ => rfl⟩
  case encoded => exact encodedAs_opcodeOf .call

/-! ### JEQ and JNE -/

theorem badOperand_jeq_of_equal {e : Bool} (he : e = true) (a : Byte) : badOperand e (.jeq a) = firstBadReg [a] := if_pos he

theorem badOperand_jne_of_not_equal {e : Bool} (he : e = false) (a : Byte) :
    badOperand e (.jne a) = firstBadReg [a] := if_neg (he ▸ Bool.false_ne_true)

theorem exec_jeq_taken {s : State} (he : s.flagE = true) {a : Byte} (ha : a.toNat < 8) :
    exec (.jeq a) s = .next (s.setPc (target (s.reg ⟨a.toNat, ha⟩))) := by
  have hbad := (badOperand_jeq_of_equal he a).trans (firstBadReg_singleton_of_lt ha)
  rw [exec_of_ownPc hbad opOwnPc_jeq, effect, if_pos he, regIndex_of_lt ha]

theorem exec_jne_taken {s : State} (he : s.flagE = false) {a : Byte} (ha : a.toNat < 8) :
    exec (.jne a) s = .next (s.setPc (target (s.reg ⟨a.toNat, ha⟩))) := by
  have hbad := (badOperand_jne_of_not_equal he a).trans (firstBadReg_singleton_of_lt ha)
  rw [exec_of_ownPc hbad opOwnPc_jne, effect, he, if_neg Bool.false_ne_true, regIndex_of_lt ha]

/-- A JEQ not taken checks no register (the spec's decision D11). -/
theorem exec_jeq_not_taken {s : State} (he : s.flagE = false) (a : Byte) :
    exec (.jeq a) s = .next (s.setPc (s.pc + 2)) := by
  have hbad : badOperand s.flagE (.jeq a) = none := if_neg (he ▸ Bool.false_ne_true)
  rw [exec_of_ownPc hbad opOwnPc_jeq, effect, he, if_neg Bool.false_ne_true, fallThrough]

/-- A JNE not taken checks no register (the spec's decision D11). -/
theorem exec_jne_not_taken {s : State} (he : s.flagE = true) (a : Byte) :
    exec (.jne a) s = .next (s.setPc (s.pc + 2)) := by
  have hbad : badOperand s.flagE (.jne a) = none := if_pos he
  rw [exec_of_ownPc hbad opOwnPc_jne, effect, if_pos he, fallThrough]

/-- Settles O17: the row of JEQ in the opcode table, the next state and the operand check of the taken path, and the next
state of the other. -/
theorem jeqBranchesOnEqual : Obligations.JeqBranchesOnEqual := by
  refine ⟨?encoded, fun s a he => ⟨fun ha => ⟨_, target_toNat _, exec_jeq_taken he ha⟩, fun ha => ?checks⟩,
    fun s a he => exec_jeq_not_taken he a⟩
  case encoded => exact encodedAs_opcodeOf .jeq
  case checks => exact exec_of_badOperand ((badOperand_jeq_of_equal he a).trans (firstBadReg_singleton_of_gt ha))

/-- Settles O18: the row of JNE in the opcode table, the next state and the operand check of the taken path, and the next
state of the other. -/
theorem jneBranchesOnNotEqual : Obligations.JneBranchesOnNotEqual := by
  refine ⟨?encoded, fun s a he => ⟨fun ha => ⟨_, target_toNat _, exec_jne_taken he ha⟩, fun ha => ?checks⟩,
    fun s a he => exec_jne_not_taken he a⟩
  case encoded => exact encodedAs_opcodeOf .jne
  case checks => exact exec_of_badOperand ((badOperand_jne_of_not_equal he a).trans (firstBadReg_singleton_of_gt ha))

/-! ### Laws over two instructions -/

theorem sp_eq_of_x {s t : State} {v : Byte} (h : t.x = s.x.set 7 v) : t.sp = v := by
  rw [State.sp, State.reg_eq, h]
  exact Vector.getElem_set_self _

/-- A write below x[7] leaves the stack pointer. -/
theorem sp_eq_of_x_of_lt {s t : State} {v w : Byte} {q : Nat} (hq : q < 7)
    (h : t.x = (s.x.set 7 v).set q w (by omega)) : t.sp = v := by
  rw [State.sp, State.reg_eq, h]
  exact (Vector.getElem_set_ne _ _ hq.ne).trans (Vector.getElem_set_self _)

theorem pushAddr_add_one (s : State) : pushAddr s + 1 = s.sp := BitVec.sub_add_cancel s.sp 1

/-- What a push leaves for the pop or RET that finds x[7] and the cell as it left them. -/
theorem after_push {s t u : State} {v : Byte} (hm : Memory.wf s.mem = true) (hx : t.x = s.x.set 7 (pushAddr s))
    (hmem : t.mem = Memory.write s.mem (pushAddr s).toNat v) (hsp : u.sp = t.sp)
    (hcell : u.byteAt t.sp.toNat = t.byteAt t.sp.toNat) : u.sp + 1 = s.sp ∧ u.byteAt u.sp.toNat = v := by
  have htsp : t.sp = pushAddr s := sp_eq_of_x hx
  refine ⟨by rw [hsp, htsp, pushAddr_add_one], ?_⟩
  rw [hsp, hcell, htsp, State.byteAt, hmem]
  exact Memory.read_write_self hm _ v

/-- Settles O43: PUSH leaves its value under the new stack pointer (`after_push`), and POP reads it there; the register POP
writes is not x[7]. -/
theorem pushPopRoundTrip : Obligations.PushPopRoundTrip := by
  intro s r q hr hq hm
  refine ⟨_, exec_push (by omega) s, fun u hsp hcell => ⟨_, exec_pop (by omega) u, ?_⟩⟩
  obtain ⟨hinc, htop⟩ := after_push hm rfl rfl hsp hcell
  exact ⟨(Vector.getElem_set_self _).trans htop, (sp_eq_of_x_of_lt hq rfl).trans hinc⟩

/-- Settles O44: CALL leaves its return address under the new stack pointer (`after_push`), and RET goes there. -/
theorem callRetRoundTrip : Obligations.CallRetRoundTrip := by
  intro s a ha hpc hm
  refine ⟨_, exec_call ha s, fun u hsp hcell => ⟨_, exec_ret u, ?_⟩⟩
  obtain ⟨hinc, htop⟩ := after_push hm rfl rfl hsp hcell
  refine ⟨?_, (sp_eq_of_x rfl).trans hinc⟩
  rw [target_toNat, htop, returnAddr_toNat hpc]

/-- Settles O45: the step executes PUSH in the state with the old operand byte latched, and its store lands on the operand
byte's cell. -/
theorem ownOperandStoreUsesFetchedByte : Obligations.OwnOperandStoreUsesFetchedByte := by
  intro s a ha hr hm hpc hop harg haddr
  have hwindow : windowInstr s = .instr (.push a) := by
    rw [windowInstr, hop, harg]
    exact (encodedAs_opcodeOf .push).1 a _
  have hstep : step s = exec (.push a) s.latched := (stepRunsDecodedInstruction s _ hpc hwindow).1 hr
  refine ⟨_, hstep.trans (exec_push ha s.latched), ?stored, sp_eq_of_x rfl, rfl, harg⟩
  case stored =>
    rw [← haddr]
    exact Memory.read_write_self hm _ _

end Sys2Proof.Machine
end

section
/-!
PROOFS. Numbers and assembler lines as text: the decimal digits of a byte read back as the byte (40_hlt_ldi_prn.md R103),
and the text of a well-formed instruction assembles to it (30_encoding.md R88).
-/

namespace Sys2Proof.Machine

open Sys2Proof.Safety

/-! ### Decimal digits -/

theorem digitChar_toNat : ∀ n < 10, (digitChar n).toNat = 48 + n := by decide

theorem isDigit_digitChar : ∀ n < 10, (digitChar n).isDigit = true := by decide

theorem digitValue_digitChar {base n : Nat} (h : n < 10) (hb : n < base) : digitValue base (digitChar n) = some n := by
  have hrange : 48 ≤ 48 + n ∧ 48 + n ≤ 57 := by omega
  simp only [digitValue, digitChar_toNat n h, if_pos hrange, Nat.add_sub_cancel_left, if_pos hb]

theorem eq_zero_of_digitChar_eq {n : Nat} (h : n < 10) (h0 : digitChar n = '0') : n = 0 := by
  have hn : 48 + n = 48 := (digitChar_toNat n h).symm.trans (congrArg Char.toNat h0)
  omega

/-- The digits of a byte are one, two or three, by its size, and all of them are below 10. -/
theorem decimalDigits_cases (v : Byte) :
    (v.toNat < 10 ∧ decimalDigits v = [digitChar v.toNat]) ∨
    (∃ d e, 1 ≤ d ∧ d < 10 ∧ e < 10 ∧ v.toNat = d * 10 + e ∧ decimalDigits v = [digitChar d, digitChar e]) ∨
    (∃ d e f, 1 ≤ d ∧ d < 10 ∧ e < 10 ∧ f < 10 ∧ v.toNat = (d * 10 + e) * 10 + f ∧
      decimalDigits v = [digitChar d, digitChar e, digitChar f]) := by
  have hv := v.isLt
  unfold decimalDigits
  by_cases h10 : v.toNat < 10
  · exact .inl ⟨h10, if_pos h10⟩
  · by_cases h100 : v.toNat < 100
    · exact .inr (.inl ⟨v.toNat / 10, v.toNat % 10, by omega, by omega, by omega, by omega,
        (if_neg h10).trans (if_pos h100)⟩)
    · exact .inr (.inr ⟨v.toNat / 100, v.toNat / 10 % 10, v.toNat % 10, by omega, by omega, by omega, by omega, by omega,
        (if_neg h10).trans (if_neg h100)⟩)

theorem isDigit_of_mem_decimalDigits {v : Byte} : ∀ c ∈ decimalDigits v, c.isDigit = true := by
  obtain ⟨h, hv⟩ | ⟨d, e, -, hd, he, -, hv⟩ | ⟨d, e, f, -, hd, he, hf, -, hv⟩ := decimalDigits_cases v
  all_goals simp only [hv, List.forall_mem_cons, List.not_mem_nil, false_imp_iff, implies_true, and_true]
  · exact isDigit_digitChar _ h
  · exact ⟨isDigit_digitChar _ hd, isDigit_digitChar _ he⟩
  · exact ⟨isDigit_digitChar _ hd, isDigit_digitChar _ he, isDigit_digitChar _ hf⟩

theorem digitsValue_digitChar_cons {n : Nat} (h : n < 10) (acc : Nat) (cs : List Char) :
    digitsValue 10 acc (digitChar n :: cs) = digitsValue 10 (acc * 10 + n) cs := by
  rw [digitsValue, digitValue_digitChar h h, Option.bind_some]

theorem numberValue_decimalDigits (v : Byte) : numberValue 10 (decimalDigits v) = some v.toNat := by
  obtain ⟨h, hv⟩ | ⟨d, e, -, hd, he, hsum, hv⟩ | ⟨d, e, f, -, hd, he, hf, hsum, hv⟩ := decimalDigits_cases v
  · rw [hv, numberValue, digitsValue_digitChar_cons h, digitsValue, Nat.zero_mul, Nat.zero_add]
  · rw [hv, numberValue, digitsValue_digitChar_cons hd, digitsValue_digitChar_cons he, digitsValue, hsum, Nat.zero_mul,
      Nat.zero_add]
  · rw [hv, numberValue, digitsValue_digitChar_cons hd, digitsValue_digitChar_cons he, digitsValue_digitChar_cons hf,
      digitsValue, hsum, Nat.zero_mul, Nat.zero_add]

/-- Only the single digit of 0 begins with '0'. -/
theorem eq_zero_of_decimalDigits_head {v : Byte} (h0 : (decimalDigits v).head? = some '0') : v = 0 := by
  obtain ⟨h, hv⟩ | ⟨d, e, hpos, hd, -, -, hv⟩ | ⟨d, e, f, hpos, hd, -, -, -, hv⟩ := decimalDigits_cases v
  all_goals rw [hv, List.head?_cons, Option.some.injEq] at h0
  · exact BitVec.eq_of_toNat_eq (eq_zero_of_digitChar_eq h h0)
  · have hd0 := eq_zero_of_digitChar_eq hd h0
    omega
  · have hd0 := eq_zero_of_digitChar_eq hd h0
    omega

/-- Settles O55: the digits read back (`numberValue_decimalDigits`), only 0 begins with '0', and rendering distributes over
the entries. -/
theorem outputRendersAsDecimalLines : Obligations.OutputRendersAsDecimalLines := by
  refine ⟨fun v => ⟨rfl, numberValue_decimalDigits v, fun h0 => ?leadingZero⟩, fun s v => ?appended⟩
  case leadingZero =>
    obtain rfl := eq_zero_of_decimalDigits_head h0
    exact ⟨rfl, rfl⟩
  case appended =>
    rw [State.renderedOutput, State.emit_out, List.flatMap_append, List.flatMap_singleton]
    rfl

/-! ### Splitting a line -/

theorem splitAtFirst_of_not_mem {sep : Char} {xs : List Char} (h : sep ∉ xs) : splitAtFirst sep xs = (xs, none) := by
  induction xs with
  | nil => rfl
  | cons c cs ih =>
    rw [splitAtFirst, if_neg (List.ne_of_not_mem_cons h).symm, ih (List.not_mem_of_not_mem_cons h)]

theorem splitAtFirst_append {sep : Char} {xs : List Char} (h : sep ∉ xs) (ys : List Char) :
    splitAtFirst sep (xs ++ sep :: ys) = (xs, some ys) := by
  induction xs with
  | nil => exact if_pos rfl
  | cons c cs ih =>
    rw [List.cons_append, splitAtFirst, if_neg (List.ne_of_not_mem_cons h).symm, ih (List.not_mem_of_not_mem_cons h)]

theorem space_not_mem_mnemonicText (o : Op) : ' ' ∉ mnemonicText o := by cases o <;> decide

theorem opOfText_mnemonicText (o : Op) : opOfText (mnemonicText o) = some o := by cases o <;> decide

/-! ### Operand texts -/

/-- An operand byte that its kind allows: a register index in 0..7, or any immediate (30_encoding.md R75). -/
def LegalOperand : OperandKind → Byte → Prop
  | .register, b => b.toNat < 8
  | .imm8, _ => True

theorem parseRegister_registerText {b : Byte} (h : b.toNat < 8) : parseRegister (registerText b) = some b := by
  rw [registerText, parseRegister, if_pos (.inl rfl), digitValue_digitChar (by omega) h, Option.map_some,
    BitVec.ofNat_toNat, BitVec.setWidth_eq]

theorem not_mem_decimalDigits {c : Char} (hc : c.isDigit = false) (v : Byte) : c ∉ decimalDigits v := fun hmem =>
  Bool.false_ne_true (hc.symm.trans (isDigit_of_mem_decimalDigits c hmem))

/-- A text with neither base letter is read as decimal. -/
theorem parseImmediate_of_no_base_letter {text : List Char} (hx : 'x' ∉ text) (hb : 'b' ∉ text) :
    parseImmediate text =
      (numberValue 10 text).bind fun v => if v < 256 then some (BitVec.ofNat 8 v) else none := by
  unfold parseImmediate
  split
  · exact absurd (.tail _ (.head _)) hx
  · exact absurd (.tail _ (.head _)) hb
  · rfl

theorem parseImmediate_decimalDigits (b : Byte) : parseImmediate (decimalDigits b) = some b := by
  rw [parseImmediate_of_no_base_letter (not_mem_decimalDigits (by decide) b) (not_mem_decimalDigits (by decide) b),
    numberValue_decimalDigits, Option.bind_some, if_pos b.isLt, BitVec.ofNat_toNat, BitVec.setWidth_eq]

theorem parseOperand_operandText {k : OperandKind} {b : Byte} (h : LegalOperand k b) :
    parseOperand k (operandText k b) = some b := by
  cases k with
  | register => exact parseRegister_registerText h
  | imm8 => exact parseImmediate_decimalDigits b

theorem comma_not_mem_operandText {k : OperandKind} {b : Byte} (h : LegalOperand k b) : ',' ∉ operandText k b := by
  cases k with
  | register =>
    have hdigit : ',' ≠ digitChar b.toNat := fun heq =>
      absurd (heq ▸ isDigit_digitChar b.toNat (Nat.lt_trans h (by decide))) (by decide)
    exact List.not_mem_cons_of_ne_of_not_mem (by decide) (List.not_mem_cons_of_ne_of_not_mem hdigit List.not_mem_nil)
  | imm8 => exact not_mem_decimalDigits (by decide) b

theorem parseOperands_operandsText {ks : List OperandKind} {bs : List Byte} (h : List.Forall₂ LegalOperand ks bs)
    (hne : bs ≠ []) (hlen : bs.length ≤ 2) :
    parseOperands ks (splitOperands (some (operandsText ks bs))) = some bs := by
  match ks, bs, h with
  | [], [], .nil => exact absurd rfl hne
  | [k], [a], .cons ha .nil =>
    simp only [operandsText, splitOperands, splitAtFirst_of_not_mem (comma_not_mem_operandText ha), parseOperands,
      parseOperand_operandText ha, Option.bind_some, Option.map_some]
  | [k, l], [a, b], .cons ha (.cons hb .nil) =>
    simp only [operandsText, splitOperands, splitAtFirst_append (comma_not_mem_operandText ha), parseOperands,
      parseOperand_operandText ha, parseOperand_operandText hb, Option.bind_some, Option.map_some]
  | _, _ :: _ :: _ :: _, _ => exact absurd hlen (Nat.not_le.2 (Nat.le_add_left 3 _))

/-! ### The assembled line -/

theorem instrOf_operands (i : Instr) : instrOf (i.operands.getD 0 0) (i.operands.getD 1 0) i.op = i := by
  cases i <;> rfl

theorem length_operands_le (i : Instr) : i.operands.length ≤ 2 :=
  Nat.le_of_succ_le_succ ((encode_length i).trans_le (opLength_opcodeOf_le_three i.op))

theorem legalOperand_of_wellFormed {i : Instr} (h : i.wellFormed = true) :
    List.Forall₂ LegalOperand (operandKinds i.op) i.operands := by
  have hlegal : ∀ b ∈ i.regOperands, b.toNat < 8 := by simpa [Instr.wellFormed] using h
  cases i with
  | hlt | ret => exact .nil
  | ldi a b => exact .cons (hlegal a (.head _)) (.cons trivial .nil)
  | add a b | sub a b | mul a b | cmp a b | and a b | or a b | xor a b =>
    exact .cons (hlegal a (.head _)) (.cons (hlegal b (.tail _ (.head _))) .nil)
  | prn a | not a | push a | pop a | call a | jmp a | jeq a | jne a => exact .cons (hlegal a (.head _)) .nil

theorem assemblerText_of_no_operands {i : Instr} (h : i.operands = []) : assemblerText i = mnemonicText i.op := by
  rw [assemblerText, h]

theorem assemblerText_of_operands {i : Instr} (h : i.operands ≠ []) :
    assemblerText i = mnemonicText i.op ++ ' ' :: operandsText (operandKinds i.op) i.operands := by
  unfold assemblerText
  split
  · exact absurd ‹_› h
  · rfl

/-- A line assembles to the instruction whose mnemonic it begins with and whose operand bytes the rest reads as. -/
theorem assemble_of_split {i : Instr} {line : List Char} {rest : Option (List Char)}
    (hline : splitAtFirst ' ' line = (mnemonicText i.op, rest))
    (hrest : parseOperands (operandKinds i.op) (splitOperands rest) = some i.operands) : assemble line = some i := by
  simp only [assemble, hline, opOfText_mnemonicText, hrest, Option.bind_some, Option.map_some, instrOf_operands]

theorem assemble_assemblerText {i : Instr} (h : i.wellFormed = true) : assemble (assemblerText i) = some i := by
  have hlegal := legalOperand_of_wellFormed h
  have hspace := space_not_mem_mnemonicText i.op
  by_cases hops : i.operands = []
  · rw [assemblerText_of_no_operands hops]
    rw [hops] at hlegal
    refine assemble_of_split (splitAtFirst_of_not_mem hspace) ?_
    rw [List.forall₂_nil_right_iff.1 hlegal, hops]
    rfl
  · rw [assemblerText_of_operands hops]
    exact assemble_of_split (splitAtFirst_append hspace _)
      (parseOperands_operandsText hlegal hops (length_operands_le i))

/-- Settles O56: the line splits at its space and its comma back into the texts it was written from, and each of them reads
back (`assemble_assemblerText`); a register's first letter is compared with both. -/
theorem assemblerReadsItsOwnText : Obligations.AssemblerReadsItsOwnText :=
  ⟨fun _ => assemble_assemblerText, fun _ => rfl⟩

end Sys2Proof.Machine
end
